-- ==== Sys2Proof/Word.lean ====
section
/-! DEFINITION. The word types of the block (00_scope.md R9): registers of 8 bits, pairs of 16, selector codes of 3. -/

namespace Sys2Proof

/-- A general register, an instruction word, a packed flag byte: 8 bits (00_scope.md R9). -/
abbrev Byte := BitVec 8

/-- A register pair: 16 bits (00_scope.md R9). -/
abbrev Word16 := BitVec 16

/-- A register selector code on a port or in an instruction word: 3 bits (30_encoding.md R84, R93). -/
abbrev RegCode := BitVec 3

/-- A pair selector code on a port: 3 bits (30_encoding.md R92). -/
abbrev PairCode := BitVec 3

/-- The operation kind code of an instruction word: 4 bits (30_encoding.md R82). -/
abbrev KindCode := BitVec 4

end Sys2Proof
end

