-- ==== Sys2Proof/Config.lean ====
section
/-! DEFINITION. What is fixed for the block (00_scope.md R9): the names of its registers, flags, pairs and storage cells,
and the reset contents the model names where the spec gives none (notes/assumptions/1.md). No value of this hardware is
left free: no instruction has an undefined result, so there is no opaque constant here. -/

namespace Sys2Proof

/-- The seven general registers, which are also the operand selectors (10_state.md R30, 30_encoding.md R81). -/
inductive Reg where
  | a | b | c | d | e | h | l
  deriving DecidableEq, Repr

/-- The four flags: zero, subtract, half-carry, carry (10_state.md R35). -/
inductive FlagName where
  | z | n | hc | cy
  deriving DecidableEq, Repr

/-- The four register pairs (10_state.md R37). -/
inductive Pair where
  | af | bc | de | hl
  deriving DecidableEq, Repr

/-- The eleven storage cells (00_scope.md R16). -/
inductive Cell where
  | reg (r : Reg)
  | flag (f : FlagName)
  deriving DecidableEq, Repr

/-- What every general register holds at reset. DESIGN CHOICE, unsafe (notes/assumptions/1.md): the spec gives no value
(10_state.md R46). -/
def Config.resetByte : Byte := 0#8

/-- What every flag holds at reset. DESIGN CHOICE, unsafe (notes/assumptions/1.md): the spec gives no value
(10_state.md R46). -/
def Config.resetFlag : Bool := false

end Sys2Proof
end

