-- ==== Sys2Proof/Syntax.lean ====
section
/-! DEFINITION. The typed instruction (30_encoding.md R81): one operation kind, carrying exactly one operand selector. -/

namespace Sys2Proof

/-- The eleven operation kinds, each with its operand selector (30_encoding.md R81, R83). All 77 combinations are legal. -/
inductive Instr where
  | add (r : Reg)
  | add16 (r : Reg)
  | adc (r : Reg)
  | sub (r : Reg)
  | sbc (r : Reg)
  | and (r : Reg)
  | or (r : Reg)
  | xor (r : Reg)
  | cp (r : Reg)
  | inc (r : Reg)
  | dec (r : Reg)
  deriving DecidableEq, Repr

end Sys2Proof
end

