-- ==== Sys2Proof/WellFormed.lean ====
section
/-! DEFINITION. Well-formedness. A typed instruction has no ill-formed term: every combination of a kind and a selector is
legal (30_encoding.md R81). What can be ill-formed is an instruction WORD, whose fields have reserved values, and a
selector code on a port. -/

namespace Sys2Proof

/-- The fields of an instruction word, as they stand (30_encoding.md R82). -/
structure WordFields where
  kind : KindCode
  rsv  : Bool
  sel  : RegCode
  deriving DecidableEq, Repr

/-- Kind codes 0xB to 0xF are reserved (30_encoding.md R87). -/
def WordFields.kindOk (w : WordFields) : Bool := decide (w.kind.toNat ≤ 0xA)

/-- Bit 3 must be 0 (30_encoding.md R85). -/
def WordFields.rsvOk (w : WordFields) : Bool := !w.rsv

/-- Selector code 7 names no register (30_encoding.md R88). -/
def WordFields.selOk (w : WordFields) : Bool := decide (w.sel.toNat ≠ 7)

/-- A legal instruction word: one of the 77 of the opcode map (30_encoding.md R94). -/
def WordFields.wellFormed (w : WordFields) : Bool := w.kindOk && w.rsvOk && w.selOk

/-- A register selector code of the ports names a register (30_encoding.md R93). -/
def regCodeOk (s : RegCode) : Bool := decide (s.toNat ≠ 7)

/-- A pair selector code of the ports names a pair (30_encoding.md R92). -/
def pairCodeOk (p : PairCode) : Bool := decide (p.toNat ≤ 3)

end Sys2Proof
end

