-- ==== Sys2Proof/Decode.lean ====
section
/-! DEFINITION. The decoder, total on all 256 words and rejecting by name (30_encoding.md R86), and the encoder written from
the same tables (R95). -/

namespace Sys2Proof

/-- Why a word is no instruction. The three reasons give the host one status (30_encoding.md R86); the name is the
decoder's own and reaches no port (notes/assumptions/17.md). -/
inductive DecodeError where
  /-- A kind code 0xB to 0xF (30_encoding.md R87). -/
  | reservedKind (k : KindCode)
  /-- Bit 3 set (30_encoding.md R85). -/
  | reservedBit
  /-- Selector code 7 (30_encoding.md R88). -/
  | noRegister
  deriving DecidableEq, Repr

/-- Bits 7:4, the kind code (30_encoding.md R82). -/
def kindField (iw : Byte) : KindCode := iw.extractLsb' 4 4

/-- Bit 3, reserved (30_encoding.md R82). -/
def rsvField (iw : Byte) : Bool := iw.getLsbD 3

/-- Bits 2:0, the selector code (30_encoding.md R82). -/
def selField (iw : Byte) : RegCode := iw.extractLsb' 0 3

/-- The three fields of a word (30_encoding.md R82). -/
def fieldsOf (iw : Byte) : WordFields := { kind := kindField iw, rsv := rsvField iw, sel := selField iw }

/-- The register a selector code names: the table SEL (30_encoding.md R84). -/
def decodeReg (s : RegCode) : Option Reg :=
  match s.toNat with
  | 0 => some .a
  | 1 => some .b
  | 2 => some .c
  | 3 => some .d
  | 4 => some .e
  | 5 => some .h
  | 6 => some .l
  | _ => none

/-- The pair a pair code names (30_encoding.md R92). -/
def decodePair (p : PairCode) : Option Pair :=
  match p.toNat with
  | 0 => some .af
  | 1 => some .bc
  | 2 => some .de
  | 3 => some .hl
  | _ => none

/-- The operation kind a kind code names: the table KIND (30_encoding.md R83). -/
def decodeKind (k : KindCode) : Option (Reg → Instr) :=
  match k.toNat with
  | 0x0 => some .add
  | 0x1 => some .add16
  | 0x2 => some .adc
  | 0x3 => some .sub
  | 0x4 => some .sbc
  | 0x5 => some .and
  | 0x6 => some .or
  | 0x7 => some .xor
  | 0x8 => some .cp
  | 0x9 => some .inc
  | 0xA => some .dec
  | _   => none

/-- decode_iw, with its three tests in the order the rule writes them (30_encoding.md R86). -/
def decode (iw : Byte) : Except DecodeError Instr :=
  match decodeKind (kindField iw) with
  | none => .error (.reservedKind (kindField iw))
  | some mk =>
    if rsvField iw then .error .reservedBit
    else match decodeReg (selField iw) with
      | none => .error .noRegister
      | some r => .ok (mk r)

/-- SELCODE (30_encoding.md R84). -/
def regCode : Reg → RegCode
  | .a => 0#3
  | .b => 1#3
  | .c => 2#3
  | .d => 3#3
  | .e => 4#3
  | .h => 5#3
  | .l => 6#3

/-- The code of a pair (30_encoding.md R92). -/
def pairCode : Pair → PairCode
  | .af => 0#3
  | .bc => 1#3
  | .de => 2#3
  | .hl => 3#3

/-- KINDCODE (30_encoding.md R83). -/
def kindCode : Instr → KindCode
  | .add _   => 0x0#4
  | .add16 _ => 0x1#4
  | .adc _   => 0x2#4
  | .sub _   => 0x3#4
  | .sbc _   => 0x4#4
  | .and _   => 0x5#4
  | .or _    => 0x6#4
  | .xor _   => 0x7#4
  | .cp _    => 0x8#4
  | .inc _   => 0x9#4
  | .dec _   => 0xA#4

/-- The operand selector of an instruction (30_encoding.md R81). -/
def operandReg : Instr → Reg
  | .add r   => r
  | .add16 r => r
  | .adc r   => r
  | .sub r   => r
  | .sbc r   => r
  | .and r   => r
  | .or r    => r
  | .xor r   => r
  | .cp r    => r
  | .inc r   => r
  | .dec r   => r

/-- encode_iw(kind, sel) = (KINDCODE[kind] << 4) | SELCODE[sel] (30_encoding.md R95). -/
def encode (i : Instr) : Byte :=
  ((kindCode i).setWidth 8 <<< 4) ||| (regCode (operandReg i)).setWidth 8

/-- The 8-bit instruction word of a numeral whose low `nbits` bits are given; the instruction is one byte
(30_encoding.md R89), so no bit above bit 7 reaches it (notes/assumptions/11.md). -/
def tableWord (nbits w : Nat) : Byte := BitVec.ofNat 8 (w % 2 ^ nbits)

/-- What the decoder reads from an instruction whose bits are `w`. -/
def decodeTableWord (nbits w : Nat) : Option Instr := (decode (tableWord nbits w)).toOption

end Sys2Proof
end

