-- ==== Sys2Proof/Machine/State.lean ====
section
/-! DEFINITION. The state of the block as plain data (10_state.md R48), the host's transactions and the block's responses,
the reasons a step can stop, and the state after reset. -/

namespace Sys2Proof.Machine

open Sys2Proof

/-- One value for each general register. -/
structure PerReg (α : Type) where
  (a b c d e h l : α)
  deriving DecidableEq, Repr

/-- One value for each flag. -/
structure PerFlag (α : Type) where
  (z n hc cy : α)
  deriving DecidableEq, Repr

/-- The seven general registers (10_state.md R30). -/
abbrev RegFile := PerReg Byte

/-- The flags value F, four independent booleans (10_state.md R35, R41). -/
abbrev Flags := PerFlag Bool

/-- The written-since-reset marks W, one for each of the eleven cells (10_state.md R40). -/
structure Marks where
  regs  : PerReg Bool
  flags : PerFlag Bool
  deriving DecidableEq, Repr

/-- The status of a transaction (60_exceptions.md R300). -/
inductive Status where
  | ok
  | unsupportedInstruction
  | invalidRegisterPair
  | invalidRegister
  deriving DecidableEq, Repr

/-- The value a read port returns (40_register_ports.md R121). -/
inductive PortValue where
  | byte (v : Byte)
  | pair (v : Word16)
  | flags (f : Flags)
  deriving DecidableEq, Repr

/-- What a transaction returns to the host: a status, and a value where the port has one (40_register_ports.md R121). -/
structure Response where
  status : Status
  value  : Option PortValue
  deriving DecidableEq, Repr

/-- A transaction: one call on one of the block's six ports (40_register_ports.md R121). -/
inductive Transaction where
  | execute (iw : Byte)
  | readRegister (s : RegCode)
  | writeRegister (s : RegCode) (v : Byte)
  | getPair (p : PairCode)
  | setPair (p : PairCode) (v : Word16)
  | flags
  deriving DecidableEq, Repr

/-- What the host does next: it issues a transaction after the one before has ended, or, against its duty, while that one is
still in progress (60_exceptions.md R319). -/
inductive HostCall where
  | issue (t : Transaction)
  | overlap (t : Transaction)
  deriving DecidableEq, Repr

/-- The reasons to fault: the spec's one model-only verdict. The block raises no exception (60_exceptions.md R310) and its
errors are statuses (R300). -/
inductive Fault where
  /-- UNINIT_READ(cell): a transaction reads a cell no transaction has written since reset (60_exceptions.md R305). Raised by
  `strictPerform`, the spec's own rule (40_register_ports.md R119, 45_dispatcher.md R246). Never raised by `step`, which
  records the cell in `State.uninitRead` and goes on (notes/assumptions/2.md). Safe. -/
  | uninitRead (c : Cell)
  deriving DecidableEq, Repr

/-- The reasons a step can be refused. -/
inductive Refusal where
  /-- An instruction without a meaning in this model. Raised by no arm of `exec`: every instruction has its meaning. Safe. -/
  | notModelled (mnemonic : String)
  /-- The host started a transaction while another was in progress on the same block. Raised by `takeHostCallBy`. Safe: the
  spec has a model refuse the run rather than interleave (60_exceptions.md R319). -/
  | overlappingTransactions
  deriving DecidableEq, Repr

/-- The state (10_state.md R48): the eleven cells and their marks, the kept UNINIT_READ, and two fields of the model's own
that stand for the outside, the latest response and the host's calls to come. -/
structure State where
  /-- The general registers (10_state.md R30). -/
  regs       : RegFile
  /-- The flags (10_state.md R35). -/
  f          : Flags
  /-- The written-since-reset marks (10_state.md R40). -/
  written    : Marks
  /-- The cell of the run's first UNINIT_READ, kept for the rest of the run (60_exceptions.md R305; notes/assumptions/2.md,
  3.md). -/
  uninitRead : Option Cell
  /-- What the latest transaction returned; nothing reads it (notes/assumptions/7.md). -/
  response   : Option Response
  /-- The host's calls not yet taken, the next one first (70_reset_and_hazards.md R350; notes/assumptions/4.md). -/
  pending    : List HostCall
  deriving DecidableEq, Repr

/-- Creation of the register file, the block's one reset (70_reset_and_hazards.md R340, R341): every mark false. The spec
gives the cells no contents; those are the model's (`Config.resetByte`, `Config.resetFlag`, notes/assumptions/1.md). -/
def State.reset : State where
  regs := ⟨Config.resetByte, Config.resetByte, Config.resetByte, Config.resetByte, Config.resetByte,
    Config.resetByte, Config.resetByte⟩
  f := ⟨Config.resetFlag, Config.resetFlag, Config.resetFlag, Config.resetFlag⟩
  written := ⟨⟨false, false, false, false, false, false, false⟩, ⟨false, false, false, false⟩⟩
  uninitRead := none
  response := none
  pending := []

end Sys2Proof.Machine
end

