-- ==== Sys2Proof/Machine/Flags.lean ====
section
/-! DEFINITION. The flag codec (41_flag_codec.md) and every result and flag computation of the ALU (42_alu_arith.md,
43_alu_logic.md, 44_alu_cp_inc_dec.md), as pure functions. Sums and differences are taken on unbounded integers and
narrowed at the end (00_scope.md R12). -/

namespace Sys2Proof.Machine

open Sys2Proof

/-- b2n, into a byte (00_scope.md R12). -/
def b2n (b : Bool) : Byte := BitVec.ofNat 8 b.toNat

/-- The codec's encode: Z, N, HC, CY to bits 7, 6, 5, 4, the rest 0 (41_flag_codec.md R140). -/
def encodeFlags (f : Flags) : Byte :=
  (b2n f.z <<< 7) ||| (b2n f.n <<< 6) ||| (b2n f.hc <<< 5) ||| (b2n f.cy <<< 4)

/-- The codec's decode: bits 7, 6, 5, 4; bits 3:0 are ignored (41_flag_codec.md R141). -/
def decodeFlags (b : Byte) : Flags where
  z  := b.getLsbD 7
  n  := b.getLsbD 6
  hc := b.getLsbD 5
  cy := b.getLsbD 4

/-- x & 0xF (00_scope.md R13). -/
def lowNibble (x : Byte) : Nat := x.toNat &&& 0xF

/-- x & 0xFFF (00_scope.md R13). -/
def low12 (x : Word16) : Nat := x.toNat &&& 0xFFF

/-- The zero flag's rule of every 8-bit operation. -/
def isZero (res : Byte) : Bool := decide (res = 0#8)

/-- (a + v + cin) mod 256: ADD with cin = 0 (42_alu_arith.md R160), ADC (R170). -/
def addResult (a v : Byte) (cin : Nat) : Byte := BitVec.ofNat 8 (a.toNat + v.toNat + cin)

/-- The flags of ADD with cin = 0 (42_alu_arith.md R160) and of ADC (R170). -/
def addFlags (a v : Byte) (cin : Nat) : Flags where
  z  := isZero (addResult a v cin)
  n  := false
  hc := decide (lowNibble a + lowNibble v + cin > 0xF)
  cy := decide (a.toNat + v.toNat + cin > 255)

/-- (a - v - cin) mod 256: SUB and CP with cin = 0 (42_alu_arith.md R175, 44_alu_cp_inc_dec.md R220), SBC (R180). -/
def subResult (a v : Byte) (cin : Nat) : Byte := BitVec.ofInt 8 ((a.toNat : Int) - v.toNat - cin)

/-- The flags of SUB and CP with cin = 0 (42_alu_arith.md R175, 44_alu_cp_inc_dec.md R220) and of SBC (R180). -/
def subFlags (a v : Byte) (cin : Nat) : Flags where
  z  := isZero (subResult a v cin)
  n  := true
  hc := decide (lowNibble a < lowNibble v + cin)
  cy := decide (a.toNat < v.toNat + cin)

/-- (hl + v16) mod 65536 (42_alu_arith.md R165). -/
def add16Result (hl v16 : Word16) : Word16 := BitVec.ofNat 16 (hl.toNat + v16.toNat)

/-- The flags of ADD16: Z and N always false, HC out of bit 11, CY out of bit 15 (42_alu_arith.md R165). -/
def add16Flags (hl v16 : Word16) : Flags where
  z  := false
  n  := false
  hc := decide (low12 hl + low12 v16 > 0xFFF)
  cy := decide (hl.toNat + v16.toNat > 65535)

/-- The flags of a logic operation: Z from the result, N and CY false, HC fixed: true for AND (43_alu_logic.md R200, R215),
false for OR and XOR (R205, R210). -/
def logicFlags (res : Byte) (hc : Bool) : Flags where
  z  := isZero res
  n  := false
  hc := hc
  cy := false

/-- (x + 1) mod 256 (44_alu_cp_inc_dec.md R225). -/
def incResult (x : Byte) : Byte := BitVec.ofNat 8 (x.toNat + 1)

/-- The half-carry of INC (44_alu_cp_inc_dec.md R225). -/
def incHalfCarry (x : Byte) : Bool := decide (lowNibble x + 1 > 0xF)

/-- (x - 1) mod 256 (44_alu_cp_inc_dec.md R230). -/
def decResult (x : Byte) : Byte := BitVec.ofInt 8 ((x.toNat : Int) - 1)

/-- The half-carry of DEC (44_alu_cp_inc_dec.md R230). -/
def decHalfCarry (x : Byte) : Bool := decide (lowNibble x = 0)

/-- The gate-level half-carry of the 8-bit operations: bit 4 of a ^ v ^ res8 (42_alu_arith.md R187). -/
def gateHalfCarry (a v res : Byte) : Bool := ((a ^^^ v ^^^ res) >>> 4 &&& 1#8) == 1#8

/-- The gate-level carry of the 8-bit additions: bit 8 of the unbounded sum (42_alu_arith.md R187). -/
def gateAddCarry (s : Nat) : Bool := s.testBit 8

/-- The gate-level carry of the 8-bit subtractions: the unbounded difference is negative (42_alu_arith.md R187). -/
def gateSubCarry (s : Int) : Bool := decide (s < 0)

/-- The gate-level half-carry of ADD16: bit 12 of hl ^ v16 ^ res (42_alu_arith.md R187). -/
def gateHalfCarry16 (hl v16 res : Word16) : Bool := ((hl ^^^ v16 ^^^ res) >>> 12 &&& 1#16) == 1#16

/-- The gate-level carry of ADD16: bit 16 of the unbounded sum (42_alu_arith.md R187). -/
def gateCarry16 (s : Nat) : Bool := s.testBit 16

end Sys2Proof.Machine
end

