-- ==== Sys2Proof/Machine/Ops.lean ====
section
/-! DEFINITION. The named operations over registers, flags, marks and pairs, and the return of a status to the host. The
error return stands where other hardware takes an exception: it is the block's only error path (60_exceptions.md R312). The
block has no memory (20_memory.md R60). -/

namespace Sys2Proof.Machine

open Sys2Proof

/-- One register's entry. -/
def PerReg.get {α : Type} (p : PerReg α) : Reg → α
  | .a => p.a
  | .b => p.b
  | .c => p.c
  | .d => p.d
  | .e => p.e
  | .h => p.h
  | .l => p.l

/-- One register's entry replaced; no other changes (10_state.md R30). -/
def PerReg.set {α : Type} (p : PerReg α) (r : Reg) (v : α) : PerReg α :=
  match r with
  | .a => { p with a := v }
  | .b => { p with b := v }
  | .c => { p with c := v }
  | .d => { p with d := v }
  | .e => { p with e := v }
  | .h => { p with h := v }
  | .l => { p with l := v }

/-- One flag's entry. -/
def PerFlag.get {α : Type} (p : PerFlag α) : FlagName → α
  | .z  => p.z
  | .n  => p.n
  | .hc => p.hc
  | .cy => p.cy

/-- The mark W[c] (10_state.md R40). -/
def Marks.get (m : Marks) : Cell → Bool
  | .reg r  => m.regs.get r
  | .flag g => m.flags.get g

/-- R[r] (00_scope.md R14). -/
def readReg (s : State) (r : Reg) : Byte := s.regs.get r

/-- R[r] <- v, and its mark set (00_scope.md R14, 10_state.md R40). -/
def writeReg (r : Reg) (v : Byte) (s : State) : State :=
  { s with regs := s.regs.set r v, written := { s.written with regs := s.written.regs.set r true } }

/-- F <- f, and all four marks set (00_scope.md R14, 10_state.md R40). -/
def writeFlags (f : Flags) (s : State) : State :=
  { s with f := f, written := { s.written with flags := ⟨true, true, true, true⟩ } }

/-- The partial flag update of INC and DEC: Z, N and HC and their marks; CY and its mark stay (44_alu_cp_inc_dec.md R225,
R235). -/
def writeFlagsButCarry (z n hc : Bool) (s : State) : State :=
  { s with
    f := ⟨z, n, hc, s.f.cy⟩
    written := { s.written with flags := ⟨true, true, true, s.written.flags.cy⟩ } }

/-- The first of the cells whose mark is false, in the order given (notes/assumptions/3.md). -/
def firstUnwritten (m : Marks) (cs : List Cell) : Option Cell := cs.find? (fun c => !m.get c)

/-- "need W[c]" for each cell a transaction reads (40_register_ports.md R114, 45_dispatcher.md R240, R246). A read of an
unwritten cell is recorded and kept for the rest of the run (60_exceptions.md R305) and the transaction goes on
(notes/assumptions/2.md); the spec's own rule, which faults there, is `strictPerform` (Machine/Strict.lean). -/
def need (cs : List Cell) (s : State) : State :=
  { s with uninitRead := s.uninitRead.or (firstUnwritten s.written cs) }

/-- hi:lo (00_scope.md R13, 20_memory.md R63). -/
def joinBytes (hi lo : Byte) : Word16 := hi ++ lo

/-- v[15:8] (00_scope.md R13). -/
def highByte (v : Word16) : Byte := v.extractLsb' 8 8

/-- v[7:0] (00_scope.md R13). -/
def lowByte (v : Word16) : Byte := v.extractLsb' 0 8

/-- The cells behind a pair, in the order get_pair reads them (40_register_ports.md R114). -/
def pairCells : Pair → List Cell
  | .af => [.reg .a, .flag .z, .flag .n, .flag .hc, .flag .cy]
  | .bc => [.reg .b, .reg .c]
  | .de => [.reg .d, .reg .e]
  | .hl => [.reg .h, .reg .l]

/-- A pair, read as a view of its halves; AF's low half is the packed flags (10_state.md R37, 40_register_ports.md R114). -/
def readPair (s : State) : Pair → Word16
  | .af => joinBytes (readReg s .a) (encodeFlags s.f)
  | .bc => joinBytes (readReg s .b) (readReg s .c)
  | .de => joinBytes (readReg s .d) (readReg s .e)
  | .hl => joinBytes (readReg s .h) (readReg s .l)

/-- A pair, written as the writes of its halves; AF's low half goes through the codec (10_state.md R38,
40_register_ports.md R116). -/
def writePair (p : Pair) (v : Word16) (s : State) : State :=
  match p with
  | .af => writeFlags (decodeFlags (lowByte v)) (writeReg .a (highByte v) s)
  | .bc => writeReg .c (lowByte v) (writeReg .b (highByte v) s)
  | .de => writeReg .e (lowByte v) (writeReg .d (highByte v) s)
  | .hl => writeReg .l (lowByte v) (writeReg .h (highByte v) s)

/-- The number of a status (60_exceptions.md R300). -/
def statusCode : Status → Nat
  | .ok => 0
  | .unsupportedInstruction => 1
  | .invalidRegisterPair => 2
  | .invalidRegister => 3

/-- A transaction returns to the host (00_scope.md R15). -/
def respond (r : Response) (s : State) : State := { s with response := some r }

/-- return OK (00_scope.md R15). -/
def returnOk (s : State) : State := respond ⟨.ok, none⟩ s

/-- return OK(v) (00_scope.md R15). -/
def returnValue (v : PortValue) (s : State) : State := respond ⟨.ok, some v⟩ s

/-- raise <Status>: the transaction ends with an error status, changes no register, flag or mark and returns no value
(00_scope.md R15, 60_exceptions.md R302). -/
def raiseStatus (st : Status) (s : State) : State := respond ⟨st, none⟩ s

end Sys2Proof.Machine
end

