-- ==== Sys2Proof/Machine/Operands.lean ====
section
/-! DEFINITION. The operand forms (30_encoding.md R91), and the table of what each instruction reads and writes
(45_dispatcher.md R242). -/

namespace Sys2Proof.Machine

open Sys2Proof

/-- A, the accumulator (10_state.md R31). -/
def accumulator (s : State) : Byte := readReg s .a

/-- HL, the first operand of ADD16 (30_encoding.md R91). -/
def hlOperand (s : State) : Word16 := readPair s .hl

/-- v16 = zext_16(R[r]), the second operand of ADD16 (30_encoding.md R91; notes/assumptions/9.md). -/
def wideOperand (s : State) (r : Reg) : Word16 := (readReg s r).setWidth 16

/-- cin = b2n(F.CY), the carry-in of ADC and SBC (42_alu_arith.md R170, R180). -/
def carryIn (s : State) : Nat := s.f.cy.toNat

/-- The column "cells read" (45_dispatcher.md R242), in its order. -/
def cellsRead : Instr → List Cell
  | .add r   => [.reg .a, .reg r]
  | .add16 r => [.reg .h, .reg .l, .reg r]
  | .adc r   => [.reg .a, .reg r, .flag .cy]
  | .sub r   => [.reg .a, .reg r]
  | .sbc r   => [.reg .a, .reg r, .flag .cy]
  | .and r   => [.reg .a, .reg r]
  | .or r    => [.reg .a, .reg r]
  | .xor r   => [.reg .a, .reg r]
  | .cp r    => [.reg .a, .reg r]
  | .inc r   => [.reg r]
  | .dec r   => [.reg r]

/-- The column "register written" (45_dispatcher.md R242, 10_state.md R33). -/
def regsWritten : Instr → List Reg
  | .add _   => [.a]
  | .add16 _ => [.h, .l]
  | .adc _   => [.a]
  | .sub _   => [.a]
  | .sbc _   => [.a]
  | .and _   => [.a]
  | .or _    => [.a]
  | .xor _   => [.a]
  | .cp _    => []
  | .inc r   => [r]
  | .dec r   => [r]

/-- The column "flags written" (45_dispatcher.md R242, 10_state.md R42). -/
def flagsWritten : Instr → List FlagName
  | .add _   => [.z, .n, .hc, .cy]
  | .add16 _ => [.z, .n, .hc, .cy]
  | .adc _   => [.z, .n, .hc, .cy]
  | .sub _   => [.z, .n, .hc, .cy]
  | .sbc _   => [.z, .n, .hc, .cy]
  | .and _   => [.z, .n, .hc, .cy]
  | .or _    => [.z, .n, .hc, .cy]
  | .xor _   => [.z, .n, .hc, .cy]
  | .cp _    => [.z, .n, .hc, .cy]
  | .inc _   => [.z, .n, .hc]
  | .dec _   => [.z, .n, .hc]

/-- All the cells an instruction writes (45_dispatcher.md R242). -/
def cellsWritten (i : Instr) : List Cell := (regsWritten i).map .reg ++ (flagsWritten i).map .flag

/-- The cells a transaction reads: the duty of the host before it (70_reset_and_hazards.md R343). A transaction that ends in
an error status reads none (60_exceptions.md R304). -/
def transactionReads : Transaction → List Cell
  | .execute iw        => match decode iw with
    | .ok i    => cellsRead i
    | .error _ => []
  | .readRegister c    => ((decodeReg c).map Cell.reg).toList
  | .writeRegister _ _ => []
  | .getPair p         => match decodePair p with
    | some q => pairCells q
    | none   => []
  | .setPair _ _       => []
  | .flags             => [.flag .z, .flag .n, .flag .hc, .flag .cy]

end Sys2Proof.Machine
end

