-- ==== Sys2Proof/Machine/Arith.lean ====
section
/-! DEFINITION. The meanings of ADD, ADD16, ADC, SUB and SBC (42_alu_arith.md). Every operand is read from the state before
the transaction (45_dispatcher.md R245); the status is OK on every path (42_alu_arith.md R185). -/

namespace Sys2Proof.Machine

open Sys2Proof

/-- ADD r (42_alu_arith.md R160). -/
def execAdd (r : Reg) (s : State) : Host.Outcome State Fault Refusal :=
  let a := accumulator s
  let v := readReg s r
  .next (s |> need [.reg .a, .reg r] |> writeReg .a (addResult a v 0) |> writeFlags (addFlags a v 0) |> returnOk)

/-- ADD16 r (42_alu_arith.md R165). -/
def execAdd16 (r : Reg) (s : State) : Host.Outcome State Fault Refusal :=
  let hl := hlOperand s
  let v16 := wideOperand s r
  .next (s |> need [.reg .h, .reg .l, .reg r] |> writePair .hl (add16Result hl v16)
    |> writeFlags (add16Flags hl v16) |> returnOk)

/-- ADC r (42_alu_arith.md R170). -/
def execAdc (r : Reg) (s : State) : Host.Outcome State Fault Refusal :=
  let a := accumulator s
  let v := readReg s r
  let cin := carryIn s
  .next (s |> need [.reg .a, .reg r, .flag .cy] |> writeReg .a (addResult a v cin)
    |> writeFlags (addFlags a v cin) |> returnOk)

/-- SUB r (42_alu_arith.md R175). -/
def execSub (r : Reg) (s : State) : Host.Outcome State Fault Refusal :=
  let a := accumulator s
  let v := readReg s r
  .next (s |> need [.reg .a, .reg r] |> writeReg .a (subResult a v 0) |> writeFlags (subFlags a v 0) |> returnOk)

/-- SBC r (42_alu_arith.md R180). -/
def execSbc (r : Reg) (s : State) : Host.Outcome State Fault Refusal :=
  let a := accumulator s
  let v := readReg s r
  let cin := carryIn s
  .next (s |> need [.reg .a, .reg r, .flag .cy] |> writeReg .a (subResult a v cin)
    |> writeFlags (subFlags a v cin) |> returnOk)

end Sys2Proof.Machine
end

