-- ==== Sys2Proof/Machine/Compare.lean ====
section
/-! DEFINITION. The meanings of CP, INC and DEC (44_alu_cp_inc_dec.md). -/

namespace Sys2Proof.Machine

open Sys2Proof

/-- CP r: the flags of A - r; the difference is kept nowhere (44_alu_cp_inc_dec.md R220, R237). -/
def execCp (r : Reg) (s : State) : Host.Outcome State Fault Refusal :=
  let a := accumulator s
  let v := readReg s r
  .next (s |> need [.reg .a, .reg r] |> writeFlags (subFlags a v 0) |> returnOk)

/-- INC r: the selected register, not the accumulator; CY stays (44_alu_cp_inc_dec.md R225, R235, R236). -/
def execInc (r : Reg) (s : State) : Host.Outcome State Fault Refusal :=
  let x := readReg s r
  .next (s |> need [.reg r] |> writeReg r (incResult x)
    |> writeFlagsButCarry (isZero (incResult x)) false (incHalfCarry x) |> returnOk)

/-- DEC r: the selected register, not the accumulator; CY stays (44_alu_cp_inc_dec.md R230, R235, R236). -/
def execDec (r : Reg) (s : State) : Host.Outcome State Fault Refusal :=
  let x := readReg s r
  .next (s |> need [.reg r] |> writeReg r (decResult x)
    |> writeFlagsButCarry (isZero (decResult x)) true (decHalfCarry x) |> returnOk)

end Sys2Proof.Machine
end

