-- ==== Sys2Proof/Machine/Logic.lean ====
section
/-! DEFINITION. The meanings of AND, OR and XOR (43_alu_logic.md). AND fixes half-carry true, OR and XOR fix it false (R215). -/

namespace Sys2Proof.Machine

open Sys2Proof

/-- AND r (43_alu_logic.md R200). -/
def execAnd (r : Reg) (s : State) : Host.Outcome State Fault Refusal :=
  let res := accumulator s &&& readReg s r
  .next (s |> need [.reg .a, .reg r] |> writeReg .a res |> writeFlags (logicFlags res true) |> returnOk)

/-- OR r (43_alu_logic.md R205). -/
def execOr (r : Reg) (s : State) : Host.Outcome State Fault Refusal :=
  let res := accumulator s ||| readReg s r
  .next (s |> need [.reg .a, .reg r] |> writeReg .a res |> writeFlags (logicFlags res false) |> returnOk)

/-- XOR r (43_alu_logic.md R210). -/
def execXor (r : Reg) (s : State) : Host.Outcome State Fault Refusal :=
  let res := accumulator s ^^^ readReg s r
  .next (s |> need [.reg .a, .reg r] |> writeReg .a res |> writeFlags (logicFlags res false) |> returnOk)

end Sys2Proof.Machine
end

