-- ==== Sys2Proof/Machine/Dispatch.lean ====
section
/-! DEFINITION. The instruction dispatcher's table: one arm for each kind (45_dispatcher.md R242). -/

namespace Sys2Proof.Machine

open Sys2Proof

def exec (i : Instr) (s : State) : Host.Outcome State Fault Refusal :=
  match i with
  | .add r => Sys2Proof.Machine.execAdd r s
  | .add16 r => Sys2Proof.Machine.execAdd16 r s
  | .adc r => Sys2Proof.Machine.execAdc r s
  | .sub r => Sys2Proof.Machine.execSub r s
  | .sbc r => Sys2Proof.Machine.execSbc r s
  | .and r => Sys2Proof.Machine.execAnd r s
  | .or r => Sys2Proof.Machine.execOr r s
  | .xor r => Sys2Proof.Machine.execXor r s
  | .cp r => Sys2Proof.Machine.execCp r s
  | .inc r => Sys2Proof.Machine.execInc r s
  | .dec r => Sys2Proof.Machine.execDec r s

end Sys2Proof.Machine
end

