-- ==== Sys2Proof/Machine/Ports.lean ====
section
/-! DEFINITION. The five register-file ports (40_register_ports.md). A port never blocks and fails for no value; its only
errors are selector codes that name nothing (R120). -/

namespace Sys2Proof.Machine

open Sys2Proof

/-- read_register(s) (40_register_ports.md R110, R111). -/
def readRegisterPort (c : RegCode) (s : State) : State :=
  match decodeReg c with
  | none   => raiseStatus .invalidRegister s
  | some r => s |> need [.reg r] |> returnValue (.byte (readReg s r))

/-- write_register(s, v): the one register; the flags stay (40_register_ports.md R112, R113; notes/assumptions/12.md). -/
def writeRegisterPort (c : RegCode) (v : Byte) (s : State) : State :=
  match decodeReg c with
  | none   => raiseStatus .invalidRegister s
  | some r => s |> writeReg r v |> returnOk

/-- get_pair(p) (40_register_ports.md R114, R115). -/
def getPairPort (c : PairCode) (s : State) : State :=
  match decodePair c with
  | none   => raiseStatus .invalidRegisterPair s
  | some p => s |> need (pairCells p) |> returnValue (.pair (readPair s p))

/-- set_pair(p, v) (40_register_ports.md R116, R117). -/
def setPairPort (c : PairCode) (v : Word16) (s : State) : State :=
  match decodePair c with
  | none   => raiseStatus .invalidRegisterPair s
  | some p => s |> writePair p v |> returnOk

/-- flags(): the snapshot of the four flags (40_register_ports.md R118). -/
def flagsPort (s : State) : State :=
  s |> need [.flag .z, .flag .n, .flag .hc, .flag .cy] |> returnValue (.flags s.f)

end Sys2Proof.Machine
end

