-- ==== Sys2Proof/Machine/Transaction.lean ====
section
/-! DEFINITION. One transaction (45_dispatcher.md R240, 40_register_ports.md R121), and how the block takes the host's next
call (70_reset_and_hazards.md R350). -/

namespace Sys2Proof.Machine

open Sys2Proof

/-- execute(iw): decode, then the dispatch table; a word that does not decode returns UNSUPPORTED_INSTRUCTION and changes
nothing (45_dispatcher.md R240, R241). -/
def executePort (iw : Byte) (s : State) : Host.Outcome State Fault Refusal :=
  match decode iw with
  | .error _ => .next (raiseStatus .unsupportedInstruction s)
  | .ok i    => exec i s

/-- One transaction on its port (40_register_ports.md R121). -/
def perform (t : Transaction) (s : State) : Host.Outcome State Fault Refusal :=
  match t with
  | .execute iw        => executePort iw s
  | .readRegister c    => .next (readRegisterPort c s)
  | .writeRegister c v => .next (writeRegisterPort c v s)
  | .getPair c         => .next (getPairPort c s)
  | .setPair c v       => .next (setPairPort c v s)
  | .flags             => .next (flagsPort s)

/-- The block takes the host's next call, a transaction issued in order being performed by `run`. -/
def takeHostCallBy (run : Transaction → State → Host.Outcome State Fault Refusal) (s : State) :
    Host.Outcome State Fault Refusal :=
  match s.pending with
  | []                => .next s
  | .overlap _ :: _   => .refused .overlappingTransactions
  | .issue t :: rest  => run t { s with pending := rest }

/-- The block takes the host's next call: a transaction issued in order is performed as a whole (45_dispatcher.md R244); one
that overlaps another is refused (60_exceptions.md R319); with no call waiting the block keeps its cells (R321;
notes/assumptions/5.md). DESIGN CHOICE (notes/assumptions/6.md): the spec does not say whether the transaction that is
overlapped completes (91_not_in_source.md N17); here it is performed whole, and the refusal comes at the overlapping call. -/
def takeHostCall (s : State) : Host.Outcome State Fault Refusal := takeHostCallBy perform s

/-- The host's very next call is `t`; its other calls follow it. -/
def issueFirst (t : Transaction) (s : State) : State := { s with pending := .issue t :: s.pending }

end Sys2Proof.Machine
end

