-- ==== Sys2Proof/Machine/Step.lean ====
section
/-! DEFINITION. One step of the machine is one transaction (45_dispatcher.md R244), and where the host puts an instruction
word for the very next step. -/

namespace Sys2Proof.Machine

open Sys2Proof

/-- One step: the host's next call. -/
def step (s : State) : Host.Outcome State Fault Refusal := takeHostCall s

/-- `s` with `execute(w)` as the host's very next call; the block fetches nothing itself (10_state.md R36,
20_memory.md R73; notes/assumptions/4.md). -/
def State.withFetchWord (s : State) (nbits w : Nat) : State := issueFirst (.execute (tableWord nbits w)) s

end Sys2Proof.Machine
end

