-- ==== Sys2Proof/Machine/Assembler.lean ====
section
/-! DEFINITION. The assembler's text form of the 77 instructions (30_encoding.md R96); there are no pseudo-instructions (R97).
Text is a list of characters. Blanks the rule does not speak of: notes/assumptions/13.md. -/

namespace Sys2Proof.Machine

open Sys2Proof

/-- What one line of assembly stands for. -/
inductive AsmLine where
  | blank
  | instr (i : Instr)
  | malformed
  deriving DecidableEq, Repr

/-- The mnemonics (30_encoding.md R83). -/
def mnemonicOf : Instr → List Char
  | .add _   => ['A', 'D', 'D']
  | .add16 _ => ['A', 'D', 'D', '1', '6']
  | .adc _   => ['A', 'D', 'C']
  | .sub _   => ['S', 'U', 'B']
  | .sbc _   => ['S', 'B', 'C']
  | .and _   => ['A', 'N', 'D']
  | .or _    => ['O', 'R']
  | .xor _   => ['X', 'O', 'R']
  | .cp _    => ['C', 'P']
  | .inc _   => ['I', 'N', 'C']
  | .dec _   => ['D', 'E', 'C']

/-- The register names (30_encoding.md R96). -/
def regNameOf : Reg → Char
  | .a => 'A'
  | .b => 'B'
  | .c => 'C'
  | .d => 'D'
  | .e => 'E'
  | .h => 'H'
  | .l => 'L'

/-- `MNEMONIC REG` (30_encoding.md R96). -/
def assemblyText (i : Instr) : List Char := mnemonicOf i ++ [' ', regNameOf (operandReg i)]

/-- All registers, in the order of their codes (30_encoding.md R84). -/
def allRegs : List Reg := [.a, .b, .c, .d, .e, .h, .l]

/-- All 77 instructions, in the order of their words (30_encoding.md R94). -/
def allInstrs : List Instr :=
  [Instr.add, .add16, .adc, .sub, .sbc, .and, .or, .xor, .cp, .inc, .dec].flatMap allRegs.map

/-- `;` starts a comment to the end of the line (30_encoding.md R96). -/
def stripComment (l : List Char) : List Char := l.takeWhile (fun ch => ch != ';')

/-- The pieces of a text between separators, the empty ones left out; `cur` is the piece under way, reversed. -/
def splitText (sep : Char) (cur : List Char) : List Char → List (List Char)
  | []      => if cur.isEmpty then [] else [cur.reverse]
  | ch :: t =>
    if ch = sep then (if cur.isEmpty then splitText sep [] t else cur.reverse :: splitText sep [] t)
    else splitText sep (ch :: cur) t

/-- One line: at most one instruction, case-insensitive (30_encoding.md R96). -/
def assembleLine (l : List Char) : AsmLine :=
  match splitText ' ' [] ((stripComment l).map Char.toUpper) with
  | []     => .blank
  | [m, r] => match allInstrs.find? (fun i => decide (mnemonicOf i = m ∧ [regNameOf (operandReg i)] = r)) with
    | some i => .instr i
    | none   => .malformed
  | _      => .malformed

/-- Lines to instructions; a malformed line is refused, none is dropped (30_encoding.md R97). -/
def collectLines : List AsmLine → Option (List Instr)
  | []               => some []
  | .blank :: t      => collectLines t
  | .instr i :: t    => (collectLines t).map (i :: ·)
  | .malformed :: _  => none

/-- A program text, one instruction a line, to its instruction words (30_encoding.md R95, R96). -/
def assemble (src : List Char) : Option (List Byte) :=
  (collectLines ((splitText '\n' [] src).map assembleLine)).map (List.map encode)

end Sys2Proof.Machine
end

