-- ==== Sys2Proof/Machine/Strict.lean ====
section
/-! DEFINITION. The spec's own rule for a cell not written since reset: a transaction that reads one has no result, the model
faults with UNINIT_READ(cell), returns no status and changes no cell, and the fault is never cleared for the run
(40_register_ports.md R119, 45_dispatcher.md R240, R246, 60_exceptions.md R305). The machine of `core` does not stop there
(notes/assumptions/2.md); this one does, and is the same elsewhere. -/

namespace Sys2Proof.Machine

open Sys2Proof

/-- One transaction with "need W[c]" as the spec has it: the first unwritten cell among those read is a fault, before
anything is written or returned (45_dispatcher.md R240, R246; 40_register_ports.md R110, R114, R118, R119). A transaction
that ends in an error status reads no cell and so does not fault (60_exceptions.md R304). Which of several unwritten cells is
named: notes/assumptions/3.md. -/
def strictPerform (t : Transaction) (s : State) : Host.Outcome State Fault Refusal :=
  match firstUnwritten s.written (transactionReads t) with
  | some c => .fault (.uninitRead c)
  | none   => perform t s

/-- One step under the spec's own rule; the host's calls are taken as `takeHostCall` takes them. -/
def strictStep (s : State) : Host.Outcome State Fault Refusal := takeHostCallBy strictPerform s

/-- The machine under the spec's own rule. A run of it stops at the first fault, so the fault is never cleared
(40_register_ports.md R119). -/
def strictCore : Host.Core :=
  { State := State,
    Fault := Fault,
    Refusal := Refusal,
    step := strictStep,
    reset := State.reset }

end Sys2Proof.Machine
end

