-- ==== Sys2Proof/Safety.lean ====
section
/-! DEFINITION. What counts as a safe run of the block, in the words claims use: the run keeps the host's duties
(70_reset_and_hazards.md R343, R350) and records no UNINIT_READ (R355). -/

namespace Sys2Proof

open Machine

/-- The run so far has a defined final state: no read of an unwritten cell is recorded (70_reset_and_hazards.md R355). -/
def Machine.State.Defined (s : State) : Prop := s.uninitRead = none

/-- Every cell has been written since reset (70_reset_and_hazards.md R344). -/
def Machine.State.AllWritten (s : State) : Prop := ∀ c : Cell, s.written.get c = true

/-- The cell holds the same in both states. -/
def Machine.SameCell (s t : State) : Cell → Prop
  | .reg r  => s.regs.get r = t.regs.get r
  | .flag g => s.f.get g = t.f.get g

/-- Two states that differ at most in the contents of cells no transaction has written since reset. -/
def Machine.AgreeOnWritten (s t : State) : Prop :=
  s.written = t.written ∧ s.uninitRead = t.uninitRead ∧ s.response = t.response ∧ s.pending = t.pending ∧
    ∀ c : Cell, s.written.get c = true → SameCell s t c

/-- A transaction that went from `s` to `t` returned OK without a value, recorded no read of an unwritten cell and took no
other call of the host. -/
def Machine.EndsOk (s t : State) : Prop :=
  t.response = some ⟨.ok, none⟩ ∧ t.uninitRead = s.uninitRead ∧ t.pending = s.pending

/-- The host keeps its duty of order: no call overlaps another (70_reset_and_hazards.md R350). -/
def Machine.State.HostInOrder (s : State) : Prop := ∀ h ∈ s.pending, ∃ t, h = .issue t

/-- The latest response is one the ports can give: an error status carries no value
(60_exceptions.md R302). -/
def Machine.State.ResponseLegal (s : State) : Prop :=
  ∀ r, s.response = some r → r.status ≠ .ok → r.value = none

/-- The marks of Z, N and HC are alike, and CY is marked only where they are: every writer of a flag writes Z, N and HC
(10_state.md R42). -/
def Machine.State.FlagMarksTogether (s : State) : Prop :=
  s.written.get (.flag .z) = s.written.get (.flag .n) ∧ s.written.get (.flag .n) = s.written.get (.flag .hc) ∧
    (s.written.get (.flag .cy) = true → s.written.get (.flag .z) = true)

/-- A run of `n` steps from `s` ends in `s'`, neither faulted nor refused. -/
def Machine.RunsTo (n : Nat) (s s' : State) : Prop := Host.Core.run core n s = .next s'

/-- A safe run: it ends, and its final state is defined (70_reset_and_hazards.md R355). -/
def Machine.SafeRun (n : Nat) (s s' : State) : Prop := RunsTo n s s' ∧ s'.Defined

/-- A run of `n` steps under the spec's own rule for unwritten cells ends in `s'`, neither faulted nor refused. -/
def Machine.StrictRunsTo (n : Nat) (s s' : State) : Prop := Host.Core.run strictCore n s = .next s'

/-- A run of `n` steps under the spec's own rule for unwritten cells stops with UNINIT_READ(c) (60_exceptions.md R305). -/
def Machine.StrictRunFaults (n : Nat) (s : State) (c : Cell) : Prop :=
  Host.Core.run strictCore n s = .fault (.uninitRead c)

end Sys2Proof
end

