-- ==== Sys2Proof/Certificates/Slice0/Obligations.lean ====
section
/-! DEFINITION. The statements about RUSTYBOY-CORE for the provers. Where a statement speaks of an unwritten cell it rests on
the model's own choice (notes/assumptions/2.md); its docstring says so. The codes of words, selectors, pairs and statuses are
the spec's own labelling (92_eei_decisions.md D7 to D12; notes/assumptions/10.md). -/

open Sys2Proof Sys2Proof.Machine

/-! ## Encoding and the assembler -/

/-- Words written out from the table of 30_encoding.md R94 decode to the instructions they stand for, and the first illegal
word of each sort does not decode. -/
def Obligations.WordsOfTheOpcodeMapDecode : Prop :=
  decode 0b00000001#8 = .ok (.add .b) ∧ decode 0b00010010#8 = .ok (.add16 .c) ∧
  decode 0b00100110#8 = .ok (.adc .l) ∧ decode 0b01000000#8 = .ok (.sbc .a) ∧
  decode 0b01110000#8 = .ok (.xor .a) ∧ decode 0b10000100#8 = .ok (.cp .e) ∧
  decode 0b10010110#8 = .ok (.inc .l) ∧ decode 0b10100101#8 = .ok (.dec .h) ∧
  decode 0b00000111#8 = .error .noRegister ∧ decode 0b00001000#8 = .error .reservedBit ∧
  decode 0b10110000#8 = .error (.reservedKind 0xB#4)

/-- Decoding and encoding agree in both directions, for every instruction with every operand and for every word that decodes
(30_encoding.md R95). -/
def Obligations.DecodeAndEncodeAgree : Prop :=
  (∀ i : Instr, decode (encode i) = .ok i) ∧ (∀ (w : Byte) (i : Instr), decode w = .ok i → encode i = w)

/-- The legal words are the 77 of the opcode map: kind at most 0xA, bit 3 clear, selector at most 6; they are the words the
well-formedness check accepts, and no other word decodes (30_encoding.md R86, R94). -/
def Obligations.LegalWordsAreTheOpcodeMap : Prop :=
  ∀ w : Byte,
    ((∃ i, decode w = .ok i) ↔ w.toNat / 16 ≤ 0xA ∧ w.toNat % 16 ≤ 6) ∧
    ((∃ i, decode w = .ok i) ↔ (fieldsOf w).wellFormed = true)

/-- Every instruction's text assembles to it, in lower case and before a comment too (30_encoding.md R96; the blank before
the comment is the model's choice, notes/assumptions/13.md). -/
def Obligations.AssemblyTextAssembles : Prop :=
  ∀ (i : Instr) (comment : List Char),
    assembleLine (assemblyText i) = .instr i ∧
    assembleLine ((assemblyText i).map Char.toLower ++ [' ', ';'] ++ comment) = .instr i

/-- A program text, one instruction a line, assembles to the instructions' words in order (30_encoding.md R95, R96). -/
def Obligations.ProgramTextAssemblesLineByLine : Prop :=
  ∀ l : List Instr, assemble (l.flatMap (fun i => assemblyText i ++ ['\n'])) = some (l.map encode)

/-! ## The step and the dispatcher -/

/-- When the host's next call is `execute` of a word that decodes, the step is `exec` of the instruction at the state from
which that one call is taken away (45_dispatcher.md R240). -/
def Obligations.StepRunsTheDecodedInstruction : Prop :=
  ∀ (s : State) (iw : Byte) (i : Instr) (rest : List HostCall),
    s.pending = .issue (.execute iw) :: rest → decode iw = .ok i → step s = exec i { s with pending := rest }

/-- An instruction word placed for the next step is run by the next step, which leaves the host's other calls
(notes/assumptions/4.md). -/
def Obligations.PlacedWordIsRunByTheNextStep : Prop :=
  ∀ (i : Instr) (s : State), step (s.withFetchWord 8 (encode i).toNat) = exec i s

/-- An illegal word (a reserved kind, bit 3 set, or selector code 7) returns UNSUPPORTED_INSTRUCTION and changes nothing, not
even the record of unwritten reads (45_dispatcher.md R241). -/
def Obligations.IllegalWordIsUnsupportedAndChangesNothing : Prop :=
  ∀ (s : State) (iw : Byte) (rest : List HostCall),
    s.pending = .issue (.execute iw) :: rest →
    (iw.toNat / 16 ≥ 0xB ∨ iw.getLsbD 3 = true ∨ iw.toNat % 8 = 7) →
    step s = .next { s with pending := rest, response := some ⟨.unsupportedInstruction, none⟩ }

/-- A decoded instruction always returns OK, and the only other status of `execute` is UNSUPPORTED_INSTRUCTION, returned
exactly for the words that do not decode (45_dispatcher.md R252). Where the instruction reads an unwritten cell the spec
returns no status (R246): that it is OK there too is the model's own choice (notes/assumptions/2.md). -/
def Obligations.OnlyIllegalWordsMakeExecuteFail : Prop :=
  ∀ (s : State) (iw : Byte) (rest : List HostCall), s.pending = .issue (.execute iw) :: rest →
    ∃ t, step s = .next t ∧
      ((∃ i, decode iw = .ok i) → t.response = some ⟨.ok, none⟩) ∧
      ((¬ ∃ i, decode iw = .ok i) → t.response = some ⟨.unsupportedInstruction, none⟩)

/-! ## The instructions -/

/-- ADD r (42_alu_arith.md R160), where the cells it reads have been written. -/
def Obligations.AddAddsToTheAccumulator : Prop :=
  ∀ (r : Reg) (s : State),
    s.written.get (.reg .a) = true → s.written.get (.reg r) = true →
    let a := s.regs.a.toNat
    let v := (s.regs.get r).toNat
    ∃ t, exec (.add r) s = .next t ∧
      t.regs.a.toNat = (a + v) % 256 ∧ (∀ q, q ≠ .a → t.regs.get q = s.regs.get q) ∧
      t.f.z = decide ((a + v) % 256 = 0) ∧ t.f.n = false ∧
      t.f.hc = decide ((a &&& 0xF) + (v &&& 0xF) > 0xF) ∧ t.f.cy = decide (a + v > 255) ∧
      EndsOk s t ∧ decode (0x00#8 ||| (regCode r).setWidth 8) = .ok (.add r)

/-- ADD16 r (42_alu_arith.md R165), where the cells it reads have been written. That the operand is the 8-bit register
zero-extended is the spec's own decision (92_eei_decisions.md D6; notes/assumptions/9.md). -/
def Obligations.Add16AddsAByteToHL : Prop :=
  ∀ (r : Reg) (s : State),
    s.written.get (.reg .h) = true → s.written.get (.reg .l) = true → s.written.get (.reg r) = true →
    let hl := s.regs.h.toNat * 256 + s.regs.l.toNat
    let v := (s.regs.get r).toNat
    ∃ t, exec (.add16 r) s = .next t ∧
      t.regs.h.toNat = (hl + v) % 65536 / 256 ∧ t.regs.l.toNat = (hl + v) % 256 ∧
      (∀ q, q ≠ .h → q ≠ .l → t.regs.get q = s.regs.get q) ∧
      t.f.z = false ∧ t.f.n = false ∧
      t.f.hc = decide ((hl &&& 0xFFF) + (v &&& 0xFFF) > 0xFFF) ∧ t.f.cy = decide (hl + v > 65535) ∧
      EndsOk s t ∧ decode (0x10#8 ||| (regCode r).setWidth 8) = .ok (.add16 r)

/-- ADC r (42_alu_arith.md R170), where the cells it reads have been written. -/
def Obligations.AdcAddsWithTheCarry : Prop :=
  ∀ (r : Reg) (s : State),
    s.written.get (.reg .a) = true → s.written.get (.reg r) = true → s.written.get (.flag .cy) = true →
    let a := s.regs.a.toNat
    let v := (s.regs.get r).toNat
    let cin : Nat := if s.f.cy then 1 else 0
    ∃ t, exec (.adc r) s = .next t ∧
      t.regs.a.toNat = (a + v + cin) % 256 ∧ (∀ q, q ≠ .a → t.regs.get q = s.regs.get q) ∧
      t.f.z = decide ((a + v + cin) % 256 = 0) ∧ t.f.n = false ∧
      t.f.hc = decide ((a &&& 0xF) + (v &&& 0xF) + cin > 0xF) ∧ t.f.cy = decide (a + v + cin > 255) ∧
      EndsOk s t ∧ decode (0x20#8 ||| (regCode r).setWidth 8) = .ok (.adc r)

/-- SUB r (42_alu_arith.md R175), where the cells it reads have been written. -/
def Obligations.SubSubtractsFromTheAccumulator : Prop :=
  ∀ (r : Reg) (s : State),
    s.written.get (.reg .a) = true → s.written.get (.reg r) = true →
    let a := s.regs.a.toNat
    let v := (s.regs.get r).toNat
    ∃ t, exec (.sub r) s = .next t ∧
      (t.regs.a.toNat : Int) = ((a : Int) - v) % 256 ∧ (∀ q, q ≠ .a → t.regs.get q = s.regs.get q) ∧
      t.f.z = decide (((a : Int) - v) % 256 = 0) ∧ t.f.n = true ∧
      t.f.hc = decide ((a &&& 0xF) < (v &&& 0xF)) ∧ t.f.cy = decide (a < v) ∧
      EndsOk s t ∧ decode (0x30#8 ||| (regCode r).setWidth 8) = .ok (.sub r)

/-- SBC r (42_alu_arith.md R180), where the cells it reads have been written. -/
def Obligations.SbcSubtractsWithTheCarry : Prop :=
  ∀ (r : Reg) (s : State),
    s.written.get (.reg .a) = true → s.written.get (.reg r) = true → s.written.get (.flag .cy) = true →
    let a := s.regs.a.toNat
    let v := (s.regs.get r).toNat
    let cin : Nat := if s.f.cy then 1 else 0
    ∃ t, exec (.sbc r) s = .next t ∧
      (t.regs.a.toNat : Int) = ((a : Int) - v - cin) % 256 ∧ (∀ q, q ≠ .a → t.regs.get q = s.regs.get q) ∧
      t.f.z = decide (((a : Int) - v - cin) % 256 = 0) ∧ t.f.n = true ∧
      t.f.hc = decide ((a &&& 0xF) < (v &&& 0xF) + cin) ∧ t.f.cy = decide (a < v + cin) ∧
      EndsOk s t ∧ decode (0x40#8 ||| (regCode r).setWidth 8) = .ok (.sbc r)

/-- AND r (43_alu_logic.md R200), where the cells it reads have been written. -/
def Obligations.AndMasksTheAccumulator : Prop :=
  ∀ (r : Reg) (s : State),
    s.written.get (.reg .a) = true → s.written.get (.reg r) = true →
    let res := s.regs.a.toNat &&& (s.regs.get r).toNat
    ∃ t, exec (.and r) s = .next t ∧
      t.regs.a.toNat = res ∧ (∀ q, q ≠ .a → t.regs.get q = s.regs.get q) ∧
      t.f.z = decide (res = 0) ∧ t.f.n = false ∧ t.f.hc = true ∧ t.f.cy = false ∧
      EndsOk s t ∧ decode (0x50#8 ||| (regCode r).setWidth 8) = .ok (.and r)

/-- OR r (43_alu_logic.md R205), where the cells it reads have been written. -/
def Obligations.OrJoinsIntoTheAccumulator : Prop :=
  ∀ (r : Reg) (s : State),
    s.written.get (.reg .a) = true → s.written.get (.reg r) = true →
    let res := s.regs.a.toNat ||| (s.regs.get r).toNat
    ∃ t, exec (.or r) s = .next t ∧
      t.regs.a.toNat = res ∧ (∀ q, q ≠ .a → t.regs.get q = s.regs.get q) ∧
      t.f.z = decide (res = 0) ∧ t.f.n = false ∧ t.f.hc = false ∧ t.f.cy = false ∧
      EndsOk s t ∧ decode (0x60#8 ||| (regCode r).setWidth 8) = .ok (.or r)

/-- XOR r (43_alu_logic.md R210), where the cells it reads have been written. -/
def Obligations.XorTogglesTheAccumulator : Prop :=
  ∀ (r : Reg) (s : State),
    s.written.get (.reg .a) = true → s.written.get (.reg r) = true →
    let res := s.regs.a.toNat ^^^ (s.regs.get r).toNat
    ∃ t, exec (.xor r) s = .next t ∧
      t.regs.a.toNat = res ∧ (∀ q, q ≠ .a → t.regs.get q = s.regs.get q) ∧
      t.f.z = decide (res = 0) ∧ t.f.n = false ∧ t.f.hc = false ∧ t.f.cy = false ∧
      EndsOk s t ∧ decode (0x70#8 ||| (regCode r).setWidth 8) = .ok (.xor r)

/-- CP r (44_alu_cp_inc_dec.md R220), where the cells it reads have been written: no register changes, and the flags are
those SUB gives from the same state. -/
def Obligations.CpOnlySetsTheFlagsOfSub : Prop :=
  ∀ (r : Reg) (s : State),
    s.written.get (.reg .a) = true → s.written.get (.reg r) = true →
    let a := s.regs.a.toNat
    let v := (s.regs.get r).toNat
    ∃ t u, exec (.cp r) s = .next t ∧ exec (.sub r) s = .next u ∧
      t.regs = s.regs ∧ t.f = u.f ∧
      t.f.z = decide (((a : Int) - v) % 256 = 0) ∧ t.f.n = true ∧
      t.f.hc = decide ((a &&& 0xF) < (v &&& 0xF)) ∧ t.f.cy = decide (a < v) ∧
      EndsOk s t ∧ decode (0x80#8 ||| (regCode r).setWidth 8) = .ok (.cp r)

/-- INC r (44_alu_cp_inc_dec.md R225), where the one cell it reads has been written: CY, and CY's mark, stay. -/
def Obligations.IncIncrementsTheSelectedRegister : Prop :=
  ∀ (r : Reg) (s : State), s.written.get (.reg r) = true →
    let x := (s.regs.get r).toNat
    ∃ t, exec (.inc r) s = .next t ∧
      (t.regs.get r).toNat = (x + 1) % 256 ∧ (∀ q, q ≠ r → t.regs.get q = s.regs.get q) ∧
      t.f.z = decide ((x + 1) % 256 = 0) ∧ t.f.n = false ∧ t.f.hc = decide ((x &&& 0xF) + 1 > 0xF) ∧
      t.f.cy = s.f.cy ∧ t.written.get (.flag .cy) = s.written.get (.flag .cy) ∧
      EndsOk s t ∧ decode (0x90#8 ||| (regCode r).setWidth 8) = .ok (.inc r)

/-- DEC r (44_alu_cp_inc_dec.md R230), where the one cell it reads has been written: CY stays. -/
def Obligations.DecDecrementsTheSelectedRegister : Prop :=
  ∀ (r : Reg) (s : State), s.written.get (.reg r) = true →
    let x := (s.regs.get r).toNat
    ∃ t, exec (.dec r) s = .next t ∧
      ((t.regs.get r).toNat : Int) = ((x : Int) - 1) % 256 ∧ (∀ q, q ≠ r → t.regs.get q = s.regs.get q) ∧
      t.f.z = decide (((x : Int) - 1) % 256 = 0) ∧ t.f.n = true ∧ t.f.hc = decide ((x &&& 0xF) = 0) ∧
      t.f.cy = s.f.cy ∧
      EndsOk s t ∧ decode (0xA0#8 ||| (regCode r).setWidth 8) = .ok (.dec r)

/-- Every instruction completes from every state. Where it reads a cell not written since reset, the model records the first
such cell of the table of 45_dispatcher.md R242 and gives the instruction the effect it has when every cell counts as
written: the model's own choice (notes/assumptions/2.md, 3.md), where the spec gives no result (R246). -/
def Obligations.UnwrittenOperandIsRecordedAndTheInstructionCompletes : Prop :=
  ∀ (i : Instr) (s : State),
    ∃ t u, exec i s = .next t ∧
      exec i { s with written := ⟨⟨true, true, true, true, true, true, true⟩, ⟨true, true, true, true⟩⟩ } = .next u ∧
      t.regs = u.regs ∧ t.f = u.f ∧ t.response = some ⟨.ok, none⟩ ∧ t.pending = s.pending ∧
      t.uninitRead = s.uninitRead.or ((cellsRead i).find? (fun c => !s.written.get c))

/-- An instruction writes exactly the registers and flags the dispatch table gives it: those cells are marked written, and
every other cell keeps its contents and its mark (10_state.md R33, R42; 45_dispatcher.md R242). The marks are the spec's
model state (92_eei_decisions.md D13). Where a cell read is unwritten the spec has the transaction change no cell
(45_dispatcher.md R246): that it completes, writes and marks there too is the model's own choice (notes/assumptions/2.md,
16.md). -/
def Obligations.ExecWritesExactlyTheCellsOfTheTable : Prop :=
  ∀ (i : Instr) (s : State),
    ∃ t, exec i s = .next t ∧
      (∀ c, t.written.get c = (s.written.get c || decide (c ∈ cellsWritten i))) ∧
      (∀ c, c ∉ cellsWritten i → SameCell s t c)

/-- What an instruction writes depends on nothing but the cells the dispatch table says it reads (45_dispatcher.md R242): two
states that agree there give the same contents of every written cell and the same response. Where a cell read is unwritten
the spec gives no result and no status (R246): that both complete there is the model's own choice (notes/assumptions/2.md). -/
def Obligations.ResultsDependOnlyOnTheCellsRead : Prop :=
  ∀ (i : Instr) (s t : State), (∀ c ∈ cellsRead i, SameCell s t c) →
    ∃ s' t', exec i s = .next s' ∧ exec i t = .next t' ∧ s'.response = t'.response ∧
      ∀ c ∈ cellsWritten i, SameCell s' t' c

/-- Who reads flags (10_state.md R43): ADC and SBC read CY, as their carry-in, and no other flag; no other instruction reads
one, INC and DEC leaving CY as it is; get_pair(AF) and flags() read all four, and no other port operation reads one. That the
carry moves A by one is R170's and R180's (42_alu_arith.md). Where a cell read is unwritten the spec gives no result
(40_register_ports.md R114, R118, R119; 45_dispatcher.md R246): that everything completes there is the model's own choice
(notes/assumptions/2.md). -/
def Obligations.OnlyAdcSbcAndTheAFPortsReadFlags : Prop :=
  (∀ (i : Instr) (s : State) (fl : Flags), (∀ r, i ≠ .adc r ∧ i ≠ .sbc r) →
    ∃ t u, exec i s = .next t ∧ exec i { s with f := fl } = .next u ∧ t.regs = u.regs ∧
      (∀ g ∈ flagsWritten i, t.f.get g = u.f.get g) ∧ (∀ g ∉ flagsWritten i, u.f.get g = fl.get g)) ∧
  (∀ (r : Reg) (s : State) (fl : Flags), fl.cy = s.f.cy →
    ∃ t u t' u', exec (.adc r) s = .next t ∧ exec (.adc r) { s with f := fl } = .next u ∧ t.regs = u.regs ∧ t.f = u.f ∧
      exec (.sbc r) s = .next t' ∧ exec (.sbc r) { s with f := fl } = .next u' ∧ t'.regs = u'.regs ∧ t'.f = u'.f) ∧
  (∀ (r : Reg) (s : State),
    ∃ t u t' u', exec (.adc r) { s with f := { s.f with cy := false } } = .next t ∧
      exec (.adc r) { s with f := { s.f with cy := true } } = .next u ∧ u.regs.a = t.regs.a + 1#8 ∧
      exec (.sbc r) { s with f := { s.f with cy := false } } = .next t' ∧
      exec (.sbc r) { s with f := { s.f with cy := true } } = .next u' ∧ u'.regs.a = t'.regs.a - 1#8) ∧
  (∀ s : State, ∃ t u, perform .flags s = .next t ∧ t.response = some ⟨.ok, some (.flags s.f)⟩ ∧
    perform (.getPair (pairCode .af)) s = .next u ∧
    u.response = some ⟨.ok, some (.pair (s.regs.a ++ encodeFlags s.f))⟩) ∧
  (∀ (t : Transaction) (s : State) (fl : Flags),
    (∀ iw, t ≠ .execute iw) → t ≠ .flags → t ≠ .getPair (pairCode .af) →
    ∃ u u', perform t s = .next u ∧ perform t { s with f := fl } = .next u' ∧
      u.regs = u'.regs ∧ u.response = u'.response)

/-- AND sets half-carry and clears carry whatever its operands (43_alu_logic.md R215); OR and XOR clear both (R205, R210).
Where a cell read is unwritten the spec gives no result (45_dispatcher.md R246): that they complete there is the model's own
choice (notes/assumptions/2.md). -/
def Obligations.AndSetsHalfCarryOrAndXorClearIt : Prop :=
  ∀ (r : Reg) (s : State),
    ∃ t u w, exec (.and r) s = .next t ∧ exec (.or r) s = .next u ∧ exec (.xor r) s = .next w ∧
      t.f.hc = true ∧ t.f.cy = false ∧ u.f.hc = false ∧ u.f.cy = false ∧ w.f.hc = false ∧ w.f.cy = false

/-- INC and DEC leave CY exactly as it was; every other instruction overwrites all four flags, so that what Z, N and HC were
before (and CY, unless the instruction reads it) leaves no trace (44_alu_cp_inc_dec.md R235). Where a cell read is unwritten
the spec gives no result (45_dispatcher.md R246): that they complete there is the model's own choice
(notes/assumptions/2.md). -/
def Obligations.IncAndDecAloneKeepTheCarry : Prop :=
  (∀ (r : Reg) (s : State), ∃ t u, exec (.inc r) s = .next t ∧ exec (.dec r) s = .next u ∧
    t.f.cy = s.f.cy ∧ u.f.cy = s.f.cy) ∧
  (∀ (i : Instr) (s : State) (fl : Flags), (∀ r, i ≠ .inc r ∧ i ≠ .dec r) →
    (fl.cy = s.f.cy ∨ ∀ r, i ≠ .adc r ∧ i ≠ .sbc r) →
    ∃ t u, exec i s = .next t ∧ exec i { s with f := fl } = .next u ∧ t.f = u.f)

/-- The carry of an earlier transaction passes through any run of INC and DEC instructions, which the host issues one after
another (70_reset_and_hazards.md R353). Where one of them reads an unwritten register the spec has a model fault
(45_dispatcher.md R246): that the list runs to its end there is the model's own choice (notes/assumptions/2.md). -/
def Obligations.CarryPassesThroughIncAndDec : Prop :=
  ∀ (l : List Instr) (s : State) (rest : List HostCall),
    (∀ i ∈ l, ∃ r, i = .inc r ∨ i = .dec r) →
    s.pending = l.map (fun i => .issue (.execute (encode i))) ++ rest →
    ∃ s', RunsTo l.length s s' ∧ s'.f.cy = s.f.cy ∧ s'.pending = rest

/-- The gate-level forms of half-carry and carry equal the formulas of the instructions, for every operand and carry-in of the
8-bit additions and subtractions and of ADD16 (42_alu_arith.md R187). -/
def Obligations.GateLevelFlagsEqualTheFormulas : Prop :=
  (∀ (a v : Byte) (cin : Bool),
    (addFlags a v cin.toNat).hc = gateHalfCarry a v (addResult a v cin.toNat) ∧
    (addFlags a v cin.toNat).cy = gateAddCarry (a.toNat + v.toNat + cin.toNat) ∧
    (subFlags a v cin.toNat).hc = gateHalfCarry a v (subResult a v cin.toNat) ∧
    (subFlags a v cin.toNat).cy = gateSubCarry ((a.toNat : Int) - v.toNat - cin.toNat)) ∧
  (∀ (hl : Word16) (v : Byte),
    (add16Flags hl (v.setWidth 16)).hc = gateHalfCarry16 hl (v.setWidth 16) (add16Result hl (v.setWidth 16)) ∧
    (add16Flags hl (v.setWidth 16)).cy = gateCarry16 (hl.toNat + (v.setWidth 16).toNat))

/-- An accumulator instruction that selects A: SUB A and XOR A clear A and set Z, SBC A turns the carry into a mask, CP A sets
Z, AND A and OR A leave A and set Z exactly when A is 0 (42_alu_arith.md R175, R180; 43_alu_logic.md R200 to R210;
44_alu_cp_inc_dec.md R220, their corner cases). On unwritten cells, where the spec gives no result (45_dispatcher.md R246),
this is the model's own choice (notes/assumptions/2.md). -/
def Obligations.SelectingTheAccumulatorItself : Prop :=
  ∀ s : State,
    (∃ t, exec (.sub .a) s = .next t ∧ t.regs.a = 0#8 ∧ t.f = ⟨true, true, false, false⟩) ∧
    (∃ t, exec (.xor .a) s = .next t ∧ t.regs.a = 0#8 ∧ t.f = ⟨true, false, false, false⟩) ∧
    (∃ t, exec (.sbc .a) s = .next t ∧ t.regs.a = (if s.f.cy then 0xFF#8 else 0#8) ∧
      t.f = ⟨!s.f.cy, true, s.f.cy, s.f.cy⟩) ∧
    (∃ t, exec (.cp .a) s = .next t ∧ t.regs = s.regs ∧ t.f = ⟨true, true, false, false⟩) ∧
    (∃ t, exec (.and .a) s = .next t ∧ t.regs = s.regs ∧ t.f = ⟨decide (s.regs.a = 0#8), false, true, false⟩) ∧
    (∃ t, exec (.or .a) s = .next t ∧ t.regs = s.regs ∧ t.f = ⟨decide (s.regs.a = 0#8), false, false, false⟩)

/-- With the carry set, adding or subtracting 0xFF with carry moves by 256: A stays, and half-carry and carry are both true
(42_alu_arith.md R170, R180, their corner cases). On unwritten cells, where the spec gives no result (45_dispatcher.md R246),
this is the model's own choice (notes/assumptions/2.md). -/
def Obligations.CarryAndFFMoveByAWholeTurn : Prop :=
  ∀ (r : Reg) (s : State), s.regs.get r = 0xFF#8 → s.f.cy = true →
    (∃ t, exec (.adc r) s = .next t ∧ t.regs = s.regs ∧ t.f.hc = true ∧ t.f.cy = true) ∧
    (∃ t, exec (.sbc r) s = .next t ∧ t.regs = s.regs ∧ t.f.hc = true ∧ t.f.cy = true)

/-! ## The flag codec -/

/-- encode sets bits 7, 6, 5, 4 from Z, N, HC, CY and leaves the others 0; decode reads the same bits and no other
(41_flag_codec.md R140, R141, R144). -/
def Obligations.FlagCodecMapsEachFlagToItsBit : Prop :=
  ∀ (f : Flags) (b : Byte),
    (encodeFlags f).getLsbD 7 = f.z ∧ (encodeFlags f).getLsbD 6 = f.n ∧ (encodeFlags f).getLsbD 5 = f.hc ∧
    (encodeFlags f).getLsbD 4 = f.cy ∧ (∀ j, j < 4 → (encodeFlags f).getLsbD j = false) ∧
    decodeFlags b = ⟨b.getLsbD 7, b.getLsbD 6, b.getLsbD 5, b.getLsbD 4⟩ ∧
    (encodeFlags f).toNat = f.z.toNat * 128 + f.n.toNat * 64 + f.hc.toNat * 32 + f.cy.toNat * 16

/-- The codec's round trips; so encode is injective, its image is the sixteen multiples of 16, and decode is its inverse there
(41_flag_codec.md R142). -/
def Obligations.FlagCodecRoundTrips : Prop :=
  (∀ b : Byte, encodeFlags (decodeFlags b) = b &&& 0xF0#8) ∧ (∀ f : Flags, decodeFlags (encodeFlags f) = f) ∧
  (∀ f g : Flags, encodeFlags f = encodeFlags g → f = g) ∧
  (∀ b : Byte, (∃ f, encodeFlags f = b) ↔ b.toNat % 16 = 0)

/-! ## The register-file ports -/

/-- read_register (40_register_ports.md R110, R111): a written register is returned and nothing changes; code 7 is
INVALID_REGISTER (the spec's decision D4). What a read of an unwritten register does is the model's choice
(notes/assumptions/2.md) and is stated elsewhere. -/
def Obligations.ReadRegisterReturnsTheRegister : Prop :=
  ∀ (s : State) (c : RegCode) (rest : List HostCall), s.pending = .issue (.readRegister c) :: rest →
    (c = 7#3 → step s = .next { s with pending := rest, response := some ⟨.invalidRegister, none⟩ }) ∧
    (∀ r, c = regCode r → s.written.get (.reg r) = true →
      step s = .next { s with pending := rest, response := some ⟨.ok, some (.byte (s.regs.get r))⟩ })

/-- write_register (40_register_ports.md R112, R113): the one register and its mark, every value accepted; no other register,
no flag and no other mark changes (the spec's decisions D20 and D13); code 7 is INVALID_REGISTER (D4). -/
def Obligations.WriteRegisterWritesOneRegister : Prop :=
  ∀ (s : State) (c : RegCode) (v : Byte) (rest : List HostCall), s.pending = .issue (.writeRegister c v) :: rest →
    (c = 7#3 → step s = .next { s with pending := rest, response := some ⟨.invalidRegister, none⟩ }) ∧
    (∀ r, c = regCode r →
      ∃ t, step s = .next t ∧ t.regs.get r = v ∧ (∀ q, q ≠ r → t.regs.get q = s.regs.get q) ∧ t.f = s.f ∧
        (∀ k, t.written.get k = (s.written.get k || decide (k = .reg r))) ∧
        t.response = some ⟨.ok, none⟩ ∧ t.uninitRead = s.uninitRead ∧ t.pending = rest)

/-- get_pair (40_register_ports.md R114): a pair whose cells have been written is returned as (high << 8) | low, AF with the
packed flags low and bits 3:0 zero, and nothing changes. -/
def Obligations.GetPairReturnsTheView : Prop :=
  ∀ (s : State) (p : Pair) (rest : List HostCall), s.pending = .issue (.getPair (pairCode p)) :: rest →
    (∀ c ∈ pairCells p, s.written.get c = true) →
    ∃ v : Word16,
      step s = .next { s with pending := rest, response := some ⟨.ok, some (.pair v)⟩ } ∧
      v.toNat = match p with
        | .af => s.regs.a.toNat * 256 +
            (s.f.z.toNat * 128 + s.f.n.toNat * 64 + s.f.hc.toNat * 32 + s.f.cy.toNat * 16)
        | .bc => s.regs.b.toNat * 256 + s.regs.c.toNat
        | .de => s.regs.d.toNat * 256 + s.regs.e.toNat
        | .hl => s.regs.h.toNat * 256 + s.regs.l.toNat

/-- set_pair (40_register_ports.md R116): v[15:8] to the first-named register and v[7:0] to the second, or through the codec
to the flags for AF; exactly these cells are written and marked, and the status is OK. Pair codes above 3 are
INVALID_REGISTER_PAIR. -/
def Obligations.SetPairWritesTheTwoHalves : Prop :=
  ∀ (s : State) (c : PairCode) (v : Word16) (rest : List HostCall), s.pending = .issue (.setPair c v) :: rest →
    let hi : Byte := BitVec.ofNat 8 (v.toNat / 256)
    let lo : Byte := BitVec.ofNat 8 (v.toNat % 256)
    let ok := fun (t : State) => step s = .next { t with pending := rest, response := some ⟨.ok, none⟩ }
    (c = 0#3 → ok { s with
      regs := { s.regs with a := hi }
      f := ⟨lo.getLsbD 7, lo.getLsbD 6, lo.getLsbD 5, lo.getLsbD 4⟩
      written := ⟨{ s.written.regs with a := true }, ⟨true, true, true, true⟩⟩ }) ∧
    (c = 1#3 → ok { s with
      regs := { s.regs with b := hi, c := lo }
      written := { s.written with regs := { s.written.regs with b := true, c := true } } }) ∧
    (c = 2#3 → ok { s with
      regs := { s.regs with d := hi, e := lo }
      written := { s.written with regs := { s.written.regs with d := true, e := true } } }) ∧
    (c = 3#3 → ok { s with
      regs := { s.regs with h := hi, l := lo }
      written := { s.written with regs := { s.written.regs with h := true, l := true } } }) ∧
    (c.toNat > 3 → step s = .next { s with pending := rest, response := some ⟨.invalidRegisterPair, none⟩ })

/-- A pair code 4 to 7 makes get_pair and set_pair fail with INVALID_REGISTER_PAIR; no value is returned and no cell changes
(40_register_ports.md R115, R117). -/
def Obligations.InvalidPairCodesFailFast : Prop :=
  ∀ (s : State) (c : PairCode) (v : Word16) (rest : List HostCall), 4 ≤ c.toNat →
    (s.pending = .issue (.getPair c) :: rest ∨ s.pending = .issue (.setPair c v) :: rest) →
    step s = .next { s with pending := rest, response := some ⟨.invalidRegisterPair, none⟩ }

/-- The pair invariant, through the ports: set_pair(X, v) puts v's high byte in the pair's first register and its low byte in
the second (for AF, through the codec, in the flags) and affects no other register; get_pair(X) then returns (high << 8) | low
(for AF with bits 3:0 zero) (10_state.md R38). -/
def Obligations.SetPairThenGetPairReturnsTheValue : Prop :=
  ∀ (s : State) (p : Pair) (v : Word16) (rest : List HostCall),
    s.pending = .issue (.setPair (pairCode p) v) :: .issue (.getPair (pairCode p)) :: rest →
    ∃ t, RunsTo 2 s t ∧ t.pending = rest ∧ t.uninitRead = s.uninitRead ∧
      t.response = some ⟨.ok, some (.pair (match p with | .af => v &&& 0xFFF0#16 | _ => v))⟩ ∧
      (∀ q, .reg q ∉ pairCells p → t.regs.get q = s.regs.get q) ∧ (p ≠ .af → t.f = s.f) ∧
      (match p with
        | .af => t.regs.a.toNat = v.toNat / 256 ∧
            t.f = ⟨v.getLsbD 7, v.getLsbD 6, v.getLsbD 5, v.getLsbD 4⟩
        | .bc => t.regs.b.toNat = v.toNat / 256 ∧ t.regs.c.toNat = v.toNat % 256
        | .de => t.regs.d.toNat = v.toNat / 256 ∧ t.regs.e.toNat = v.toNat % 256
        | .hl => t.regs.h.toNat = v.toNat / 256 ∧ t.regs.l.toNat = v.toNat % 256)

/-- flags() (40_register_ports.md R118): where the four flags have been written, their snapshot is returned and nothing
changes. -/
def Obligations.FlagsPortReturnsTheSnapshot : Prop :=
  ∀ (s : State) (rest : List HostCall), s.pending = .issue .flags :: rest →
    (∀ g, s.written.get (.flag g) = true) →
    step s = .next { s with pending := rest, response := some ⟨.ok, some (.flags s.f)⟩ }

/-- Every port call other than `execute`: a read has no side effect on cells or marks, and repeating it at once gives the same
response; repeating a write_register or a set_pair leaves the state of doing it once (20_memory.md R69). Where a cell read is
unwritten the spec gives no result (40_register_ports.md R119): that the read completes there, with the same response each
time, is the model's own choice (notes/assumptions/2.md). -/
def Obligations.ReadsAreRepeatableAndWritesIdempotent : Prop :=
  ∀ (s : State) (t : Transaction), (∀ iw, t ≠ .execute iw) →
    ∃ u, perform t s = .next u ∧ perform t u = .next u ∧
      ((t = .flags ∨ (∃ c, t = .readRegister c) ∨ ∃ c, t = .getPair c) →
        u.regs = s.regs ∧ u.f = s.f ∧ u.written = s.written)

/-- Each of the six ports answers every call with a status it may return and, with OK, a value of its own width
(40_register_ports.md R121). Where a cell read is unwritten the spec returns neither status nor value (R119; 45_dispatcher.md
R246): that the call is answered there is the model's own choice (notes/assumptions/2.md). -/
def Obligations.EachPortReturnsItsOwnStatuses : Prop :=
  ∀ (s : State) (t : Transaction) (rest : List HostCall), s.pending = .issue t :: rest →
    ∃ u r, step s = .next u ∧ u.response = some r ∧
      match t with
      | .execute _ => r = ⟨.ok, none⟩ ∨ r = ⟨.unsupportedInstruction, none⟩
      | .readRegister _ => (∃ v, r = ⟨.ok, some (.byte v)⟩) ∨ r = ⟨.invalidRegister, none⟩
      | .writeRegister _ _ => r = ⟨.ok, none⟩ ∨ r = ⟨.invalidRegister, none⟩
      | .getPair _ => (∃ v, r = ⟨.ok, some (.pair v)⟩) ∨ r = ⟨.invalidRegisterPair, none⟩
      | .setPair _ _ => r = ⟨.ok, none⟩ ∨ r = ⟨.invalidRegisterPair, none⟩
      | .flags => ∃ f, r = ⟨.ok, some (.flags f)⟩

/-! ## Errors -/

/-- A transaction that returns a status other than OK changes no register, no flag and no mark, and returns no value
(60_exceptions.md R302); nor does it record an unwritten read (R304). -/
def Obligations.ErrorStatusChangesNothing : Prop :=
  ∀ (s s' : State) (t : Transaction) (rest : List HostCall) (r : Response), s.pending = .issue t :: rest →
    step s = .next s' → s'.response = some r → r.status ≠ .ok →
    r.value = none ∧ s' = { s with pending := rest, response := some r }

/-- After a failed transaction the next one runs as if the failed one had not been issued (60_exceptions.md R303). -/
def Obligations.FailedTransactionLeavesNoTrace : Prop :=
  ∀ (s s' : State) (bad t : Transaction) (rest : List HostCall) (r : Response),
    s.pending = .issue bad :: .issue t :: rest →
    step s = .next s' → s'.response = some r → r.status ≠ .ok →
    step s' = step { s with pending := .issue t :: rest }

/-- A call that overlaps another is refused, and nothing else ever stops the block (60_exceptions.md R319, the spec's decision
D21; that nothing faults rests on notes/assumptions/2.md). -/
def Obligations.OnlyAnOverlappingCallStopsTheBlock : Prop :=
  ∀ s : State,
    (∀ r, step s = .refused r ↔ r = .overlappingTransactions ∧ ∃ t rest, s.pending = .overlap t :: rest) ∧
    (∀ e, step s ≠ .fault e)

/-! ## Sequencing and runs -/

/-- The block takes the host's transactions one a step and in order, and completes each: after as many steps as there are
transactions exactly the rest of the host's calls is left (70_reset_and_hazards.md R350; 45_dispatcher.md R248). Where one
reads an unwritten cell the spec has a model fault (40_register_ports.md R119; 45_dispatcher.md R246): that the list completes
there is the model's own choice (notes/assumptions/2.md). -/
def Obligations.TransactionsAreTakenInOrderAndComplete : Prop :=
  ∀ (l : List Transaction) (s : State) (rest : List HostCall),
    s.pending = l.map .issue ++ rest → ∃ s', RunsTo l.length s s' ∧ s'.pending = rest

/-- A host that keeps its duty of order never sees the block stop, for any number of steps; with no call waiting the block
keeps its whole state (60_exceptions.md R321; the idle step is the model's choice, notes/assumptions/5.md). That an unwritten
read is no stop either, where the spec has a model fault (40_register_ports.md R119; 45_dispatcher.md R246), is the model's own
choice (notes/assumptions/2.md); what the spec's own rule stops is stated of `strictStep` below. -/
def Obligations.OrderedHostNeverSeesAStop : Prop :=
  ∀ s : State, s.HostInOrder →
    (∀ n, ∃ s', RunsTo n s s' ∧ s'.HostInOrder) ∧ (s.pending = [] → ∀ n, RunsTo n s s)

/-! ## Reset, marks and unwritten cells -/

/-- After reset every mark is false, no unwritten read is recorded, and bits 3:0 of the packed flags read 0
(70_reset_and_hazards.md R341; the marks are the spec's decision D13). No clause speaks of the cells' contents. -/
def Obligations.ResetLeavesEveryMarkFalse : Prop :=
  (∀ c : Cell, State.reset.written.get c = false) ∧ State.reset.uninitRead = none ∧
    (encodeFlags State.reset.f).toNat % 16 = 0

/-- A mark, once set, is never false again (10_state.md R40, the spec's decision D13). -/
def Obligations.MarksNeverReturnToFalse : Prop :=
  ∀ s s' : State, step s = .next s' → ∀ c, s.written.get c = true → s'.written.get c = true

/-- Over any run, a cell whose mark is still false at the end was unwritten at the start and holds what it held there: the
marks miss no write (10_state.md R40, the spec's decision D13). -/
def Obligations.UnmarkedCellsAreNeverWritten : Prop :=
  ∀ (n : Nat) (s s' : State), RunsTo n s s' → ∀ c, s'.written.get c = false →
    s.written.get c = false ∧ SameCell s s' c

/-- A step records the first unwritten cell its transaction reads, unless one is recorded already; a recorded one is kept
(60_exceptions.md R304, R305; 45_dispatcher.md R246; the model's recording, notes/assumptions/2.md, 3.md). -/
def Obligations.UnwrittenReadIsRecordedOnceAndKept : Prop :=
  ∀ (s : State) (t : Transaction) (rest : List HostCall), s.pending = .issue t :: rest →
    ∃ s', step s = .next s' ∧
      s'.uninitRead = s.uninitRead.or ((transactionReads t).find? (fun c => !s.written.get c))

/-- The four set_pair transactions, in any order and with any values, write all eleven cells and record nothing
(70_reset_and_hazards.md R344). -/
def Obligations.FourSetPairsWriteEveryCell : Prop :=
  ∀ (s : State) (v0 v1 v2 v3 : Word16) (l : List Transaction) (rest : List HostCall),
    l.Perm [.setPair (pairCode .af) v0, .setPair (pairCode .bc) v1, .setPair (pairCode .de) v2,
      .setPair (pairCode .hl) v3] →
    s.pending = l.map .issue ++ rest →
    ∃ s', RunsTo 4 s s' ∧ s'.AllWritten ∧ s'.uninitRead = s.uninitRead ∧ s'.pending = rest

/-- Every step keeps a booted block booted: with all cells written and no unwritten read recorded, both stay so
(70_reset_and_hazards.md R344). -/
def Obligations.BootedBlockStaysDefined : Prop :=
  ∀ s s' : State, s.AllWritten ∧ s.Defined → step s = .next s' → s'.AllWritten ∧ s'.Defined

/-- What the cells hold at reset never reaches a safe run: two states that differ only in cells not written since reset give,
over any number of steps, the same responses, marks, records and written cells, as long as no unwritten read is recorded
(10_state.md R46; 70_reset_and_hazards.md R341, R343). So no such run rests on the reset contents the model names
(notes/assumptions/1.md). -/
def Obligations.ResetContentsNeverReachASafeRun : Prop :=
  ∀ (n : Nat) (s t s' : State), AgreeOnWritten s t → SafeRun n s s' → ∃ t', SafeRun n t t' ∧ AgreeOnWritten s' t'

/-- Every step keeps the flag marks together: Z, N and HC are marked alike, and CY only where they are, because every writer of
a flag writes Z, N and HC (10_state.md R42; the marks are the spec's decision D13). -/
def Obligations.StepKeepsTheFlagMarksTogether : Prop :=
  ∀ s s' : State, s.FlagMarksTogether → step s = .next s' → s'.FlagMarksTogether

/-- The flag marks are together at reset, where every mark is false (70_reset_and_hazards.md R341). -/
def Obligations.FlagMarksAreTogetherAtReset : Prop := State.reset.FlagMarksTogether

/-- Every step keeps the latest response legal: an error status carries no value (60_exceptions.md R302). -/
def Obligations.StepKeepsTheResponseLegal : Prop :=
  ∀ s s' : State, s.ResponseLegal → step s = .next s' → s'.ResponseLegal

/-- The response is legal at reset: there is none yet (notes/assumptions/7.md). -/
def Obligations.ResponseIsLegalAtReset : Prop := State.reset.ResponseLegal

/-! ## The spec's own rule for unwritten cells -/

/-- Under the spec's own rule (the strict step; 40_register_ports.md R119, 45_dispatcher.md R246, the spec's decision D13) a
transaction faults with UNINIT_READ(c) exactly where it reads an unwritten cell, c being the first of them in the spec's list
(notes/assumptions/3.md); where every cell it reads has been written it completes, as in the machine of `core`, and nothing is
recorded. -/
def Obligations.StrictStepFaultsExactlyOnAnUnwrittenRead : Prop :=
  ∀ (s : State) (t : Transaction) (rest : List HostCall), s.pending = .issue t :: rest →
    (∀ c, strictStep s = .fault (.uninitRead c) ↔ (transactionReads t).find? (fun k => !s.written.get k) = some c) ∧
    ((∀ c ∈ transactionReads t, s.written.get c = true) →
      ∃ u, strictStep s = .next u ∧ step s = .next u ∧ u.uninitRead = s.uninitRead)

/-- The runs that end under the spec's own rule are the safe runs of the machine of `core`: from a state without a record, the
two machines reach the same state in the same number of steps exactly when no unwritten read is recorded on the way
(70_reset_and_hazards.md R355, the spec's decision D13). So what holds of every safe run holds under the spec's own rule. -/
def Obligations.StrictRunsAreTheSafeRuns : Prop :=
  ∀ (n : Nat) (s s' : State), s.Defined → (StrictRunsTo n s s' ↔ SafeRun n s s')

/-- Where a run of the machine of `core` ends with UNINIT_READ(c) recorded, the same run under the spec's own rule has stopped
with that fault, and only there (60_exceptions.md R305, the spec's decision D13; recording in place of stopping is the model's
own choice, notes/assumptions/2.md). -/
def Obligations.StrictRunFaultsWhereTheRecordIsMade : Prop :=
  ∀ (n : Nat) (s s' : State) (c : Cell), s.Defined → RunsTo n s s' → (StrictRunFaults n s c ↔ s'.uninitRead = some c)
end

