-- ==== Sys2Proof/Laws/State.lean ====
section
/-! SUPPORT. One lemma for each field and each update of State, true by rfl, and the read-after-write laws of the register
file and the marks. -/

namespace Sys2Proof.Machine

open Sys2Proof

theorem PerReg.get_set {α : Type} (p : PerReg α) (r q : Reg) (v : α) :
    (p.set r v).get q = if q = r then v else p.get q := by
  cases r <;> cases q <;> rfl

@[simp] theorem PerReg.get_set_same {α : Type} (p : PerReg α) (r : Reg) (v : α) : (p.set r v).get r = v := by
  cases r <;> rfl

theorem PerReg.get_set_other {α : Type} (p : PerReg α) {r q : Reg} (v : α) (h : q ≠ r) :
    (p.set r v).get q = p.get q := by
  rw [PerReg.get_set, if_neg h]

/-- Writing back what is there changes nothing. -/
@[simp] theorem PerReg.set_get {α : Type} (p : PerReg α) (r : Reg) : p.set r (p.get r) = p := by
  cases r <;> rfl

/-- Register files with the same contents are the same register file. -/
theorem PerReg.eq_of_get {α : Type} {p q : PerReg α} (h : ∀ r, p.get r = q.get r) : p = q := by
  cases p; cases q
  simpa [PerReg.get] using
    And.intro (h .a) ⟨h .b, h .c, h .d, h .e, h .h, h .l⟩

/-- Flags with the same contents are the same flags. -/
theorem PerFlag.eq_of_get {α : Type} {p q : PerFlag α} (h : ∀ g, p.get g = q.get g) : p = q := by
  cases p; cases q
  simpa [PerFlag.get] using And.intro (h .z) ⟨h .n, h .hc, h .cy⟩

/-! The entry of a named register or flag is its field, also after a write. -/

@[simp] theorem PerReg.get_a {α : Type} (p : PerReg α) : p.get .a = p.a := rfl
@[simp] theorem PerReg.get_b {α : Type} (p : PerReg α) : p.get .b = p.b := rfl
@[simp] theorem PerReg.get_c {α : Type} (p : PerReg α) : p.get .c = p.c := rfl
@[simp] theorem PerReg.get_d {α : Type} (p : PerReg α) : p.get .d = p.d := rfl
@[simp] theorem PerReg.get_e {α : Type} (p : PerReg α) : p.get .e = p.e := rfl
@[simp] theorem PerReg.get_h {α : Type} (p : PerReg α) : p.get .h = p.h := rfl
@[simp] theorem PerReg.get_l {α : Type} (p : PerReg α) : p.get .l = p.l := rfl
@[simp] theorem PerReg.set_field_a {α : Type} (p : PerReg α) (r : Reg) (v : α) :
    (p.set r v).a = if Reg.a = r then v else p.a := PerReg.get_set p r .a v
@[simp] theorem PerReg.set_field_b {α : Type} (p : PerReg α) (r : Reg) (v : α) :
    (p.set r v).b = if Reg.b = r then v else p.b := PerReg.get_set p r .b v
@[simp] theorem PerReg.set_field_c {α : Type} (p : PerReg α) (r : Reg) (v : α) :
    (p.set r v).c = if Reg.c = r then v else p.c := PerReg.get_set p r .c v
@[simp] theorem PerReg.set_field_d {α : Type} (p : PerReg α) (r : Reg) (v : α) :
    (p.set r v).d = if Reg.d = r then v else p.d := PerReg.get_set p r .d v
@[simp] theorem PerReg.set_field_e {α : Type} (p : PerReg α) (r : Reg) (v : α) :
    (p.set r v).e = if Reg.e = r then v else p.e := PerReg.get_set p r .e v
@[simp] theorem PerReg.set_field_h {α : Type} (p : PerReg α) (r : Reg) (v : α) :
    (p.set r v).h = if Reg.h = r then v else p.h := PerReg.get_set p r .h v
@[simp] theorem PerReg.set_field_l {α : Type} (p : PerReg α) (r : Reg) (v : α) :
    (p.set r v).l = if Reg.l = r then v else p.l := PerReg.get_set p r .l v
@[simp] theorem PerFlag.get_z {α : Type} (p : PerFlag α) : p.get .z = p.z := rfl
@[simp] theorem PerFlag.get_n {α : Type} (p : PerFlag α) : p.get .n = p.n := rfl
@[simp] theorem PerFlag.get_hc {α : Type} (p : PerFlag α) : p.get .hc = p.hc := rfl
@[simp] theorem PerFlag.get_cy {α : Type} (p : PerFlag α) : p.get .cy = p.cy := rfl

@[simp] theorem Marks.get_reg (m : Marks) (r : Reg) : m.get (.reg r) = m.regs.get r := rfl
@[simp] theorem Marks.get_flag (m : Marks) (g : FlagName) : m.get (.flag g) = m.flags.get g := rfl

@[simp] theorem writeReg_regs (r : Reg) (v : Byte) (s : State) : (writeReg r v s).regs = s.regs.set r v := rfl
@[simp] theorem writeReg_f (r : Reg) (v : Byte) (s : State) : (writeReg r v s).f = s.f := rfl
@[simp] theorem writeReg_written (r : Reg) (v : Byte) (s : State) :
    (writeReg r v s).written = ⟨s.written.regs.set r true, s.written.flags⟩ := rfl
@[simp] theorem writeReg_uninitRead (r : Reg) (v : Byte) (s : State) :
    (writeReg r v s).uninitRead = s.uninitRead := rfl
@[simp] theorem writeReg_response (r : Reg) (v : Byte) (s : State) : (writeReg r v s).response = s.response := rfl
@[simp] theorem writeReg_pending (r : Reg) (v : Byte) (s : State) : (writeReg r v s).pending = s.pending := rfl

@[simp] theorem writeFlags_regs (f : Flags) (s : State) : (writeFlags f s).regs = s.regs := rfl
@[simp] theorem writeFlags_f (f : Flags) (s : State) : (writeFlags f s).f = f := rfl
@[simp] theorem writeFlags_written (f : Flags) (s : State) :
    (writeFlags f s).written = ⟨s.written.regs, ⟨true, true, true, true⟩⟩ := rfl
@[simp] theorem writeFlags_uninitRead (f : Flags) (s : State) : (writeFlags f s).uninitRead = s.uninitRead := rfl
@[simp] theorem writeFlags_response (f : Flags) (s : State) : (writeFlags f s).response = s.response := rfl
@[simp] theorem writeFlags_pending (f : Flags) (s : State) : (writeFlags f s).pending = s.pending := rfl

@[simp] theorem writeFlagsButCarry_regs (z n hc : Bool) (s : State) : (writeFlagsButCarry z n hc s).regs = s.regs := rfl
@[simp] theorem writeFlagsButCarry_f (z n hc : Bool) (s : State) :
    (writeFlagsButCarry z n hc s).f = ⟨z, n, hc, s.f.cy⟩ := rfl
@[simp] theorem writeFlagsButCarry_written (z n hc : Bool) (s : State) :
    (writeFlagsButCarry z n hc s).written = ⟨s.written.regs, ⟨true, true, true, s.written.flags.cy⟩⟩ := rfl
@[simp] theorem writeFlagsButCarry_uninitRead (z n hc : Bool) (s : State) :
    (writeFlagsButCarry z n hc s).uninitRead = s.uninitRead := rfl
@[simp] theorem writeFlagsButCarry_response (z n hc : Bool) (s : State) :
    (writeFlagsButCarry z n hc s).response = s.response := rfl
@[simp] theorem writeFlagsButCarry_pending (z n hc : Bool) (s : State) :
    (writeFlagsButCarry z n hc s).pending = s.pending := rfl

@[simp] theorem need_regs (cs : List Cell) (s : State) : (need cs s).regs = s.regs := rfl
@[simp] theorem need_f (cs : List Cell) (s : State) : (need cs s).f = s.f := rfl
@[simp] theorem need_written (cs : List Cell) (s : State) : (need cs s).written = s.written := rfl
@[simp] theorem need_uninitRead (cs : List Cell) (s : State) :
    (need cs s).uninitRead = s.uninitRead.or (firstUnwritten s.written cs) := rfl
@[simp] theorem need_response (cs : List Cell) (s : State) : (need cs s).response = s.response := rfl
@[simp] theorem need_pending (cs : List Cell) (s : State) : (need cs s).pending = s.pending := rfl

@[simp] theorem respond_regs (r : Response) (s : State) : (respond r s).regs = s.regs := rfl
@[simp] theorem respond_f (r : Response) (s : State) : (respond r s).f = s.f := rfl
@[simp] theorem respond_written (r : Response) (s : State) : (respond r s).written = s.written := rfl
@[simp] theorem respond_uninitRead (r : Response) (s : State) : (respond r s).uninitRead = s.uninitRead := rfl
@[simp] theorem respond_response (r : Response) (s : State) : (respond r s).response = some r := rfl
@[simp] theorem respond_pending (r : Response) (s : State) : (respond r s).pending = s.pending := rfl

@[simp] theorem returnOk_eq (s : State) : returnOk s = respond ⟨.ok, none⟩ s := rfl
@[simp] theorem returnValue_eq (v : PortValue) (s : State) : returnValue v s = respond ⟨.ok, some v⟩ s := rfl
@[simp] theorem raiseStatus_eq (st : Status) (s : State) : raiseStatus st s = respond ⟨st, none⟩ s := rfl

end Sys2Proof.Machine
end

