-- ==== Sys2Proof/Laws/Ops.lean ====
section
/-! SUPPORT. What each shared operation can do, said once: pairs, unwritten cells, the arithmetic forms of the ALU functions,
the selector codes, and the cases of one step. -/

namespace Sys2Proof.Machine

open Sys2Proof

/-! ### Pairs -/

/-- (hi << 8) | lo, as a number. -/
theorem joinBytes_toNat (hi lo : Byte) : (joinBytes hi lo).toNat = hi.toNat * 256 + lo.toNat := by
  have := lo.isLt
  simp only [joinBytes, BitVec.toNat_append]
  rw [← Nat.shiftLeft_add_eq_or_of_lt this, Nat.shiftLeft_eq]

theorem highByte_toNat (v : Word16) : (highByte v).toNat = v.toNat / 256 := by
  have := v.isLt
  simp only [highByte, BitVec.extractLsb'_toNat, Nat.shiftRight_eq_div_pow]
  omega

theorem lowByte_toNat (v : Word16) : (lowByte v).toNat = v.toNat % 256 := by
  simp [lowByte, BitVec.extractLsb'_toNat]

@[simp] theorem highByte_joinBytes (hi lo : Byte) : highByte (joinBytes hi lo) = hi := by
  have := lo.isLt
  apply BitVec.eq_of_toNat_eq
  rw [highByte_toNat, joinBytes_toNat]
  omega

@[simp] theorem lowByte_joinBytes (hi lo : Byte) : lowByte (joinBytes hi lo) = lo := by
  have := lo.isLt
  apply BitVec.eq_of_toNat_eq
  rw [lowByte_toNat, joinBytes_toNat]
  omega

/-- A pair is the join of its halves. -/
@[simp] theorem joinBytes_halves (v : Word16) : joinBytes (highByte v) (lowByte v) = v := by
  apply BitVec.eq_of_toNat_eq
  rw [joinBytes_toNat, highByte_toNat, lowByte_toNat]
  omega

/-! ### Unwritten cells -/

@[simp] theorem firstUnwritten_nil (m : Marks) : firstUnwritten m [] = none := rfl

@[simp] theorem firstUnwritten_cons (m : Marks) (c : Cell) (cs : List Cell) :
    firstUnwritten m (c :: cs) = if m.get c then firstUnwritten m cs else some c := by
  cases h : m.get c <;> simp [firstUnwritten, h]

/-- Nothing is recorded exactly where every cell is marked. -/
theorem firstUnwritten_eq_none (m : Marks) (cs : List Cell) :
    firstUnwritten m cs = none ↔ ∀ c ∈ cs, m.get c = true := by
  simp [firstUnwritten]

/-- Where every needed cell is marked, `need` leaves the record as it is. -/
theorem need_of_written {cs : List Cell} {s : State} (h : ∀ c ∈ cs, s.written.get c = true) : need cs s = s := by
  simp [need, (firstUnwritten_eq_none s.written cs).2 h]

/-- After `need`, no record means: none before, and every needed cell marked. -/
theorem need_uninitRead_eq_none {cs : List Cell} {s : State} (h : (need cs s).uninitRead = none) :
    s.uninitRead = none ∧ ∀ c ∈ cs, s.written.get c = true := by
  rw [need_uninitRead, Option.or_eq_none_iff] at h
  exact ⟨h.1, (firstUnwritten_eq_none _ _).1 h.2⟩

/-! ### Marks -/

/-- A register write marks that register and no other cell. -/
theorem writeReg_mark (r : Reg) (v : Byte) (s : State) (c : Cell) :
    (writeReg r v s).written.get c = (s.written.get c || decide (c = .reg r)) := by
  cases c with
  | reg q => by_cases h : q = r <;> simp [PerReg.get_set, h]
  | flag g => simp

/-- A flag write marks the four flags and no other cell. -/
theorem writeFlags_mark (f : Flags) (s : State) (c : Cell) :
    (writeFlags f s).written.get c = (s.written.get c || decide (c ∈ [.flag .z, .flag .n, .flag .hc, .flag .cy])) := by
  rcases c with r | g
  · simp
  · cases g <;> simp [PerFlag.get]

/-- The partial flag write marks Z, N and HC and no other cell. -/
theorem writeFlagsButCarry_mark (z n hc : Bool) (s : State) (c : Cell) :
    (writeFlagsButCarry z n hc s).written.get c =
      (s.written.get c || decide (c = .flag .z ∨ c = .flag .n ∨ c = .flag .hc)) := by
  rcases c with r | g
  · simp
  · cases g <;> simp [PerFlag.get]

/-! ### The ALU functions as arithmetic -/

theorem lowNibble_eq (x : Byte) : lowNibble x = x.toNat % 16 := Nat.and_two_pow_sub_one_eq_mod x.toNat 4

theorem low12_eq (x : Word16) : low12 x = x.toNat % 4096 := Nat.and_two_pow_sub_one_eq_mod x.toNat 12

theorem isZero_iff (x : Byte) : isZero x = true ↔ x.toNat = 0 := by
  simp [isZero, ← BitVec.toNat_inj]

theorem isZero_eq (x : Byte) : isZero x = decide (x.toNat = 0) := by
  simp [isZero, ← BitVec.toNat_inj]

theorem addResult_toNat (a v : Byte) (cin : Nat) :
    (addResult a v cin).toNat = (a.toNat + v.toNat + cin) % 256 := by
  simp [addResult]

theorem subResult_toNat (a v : Byte) (cin : Nat) :
    ((subResult a v cin).toNat : Int) = ((a.toNat : Int) - v.toNat - cin) % 256 := by
  simp only [subResult, BitVec.toNat_ofInt]
  omega

theorem add16Result_toNat (hl v16 : Word16) : (add16Result hl v16).toNat = (hl.toNat + v16.toNat) % 65536 := by
  simp [add16Result]

theorem incResult_toNat (x : Byte) : (incResult x).toNat = (x.toNat + 1) % 256 := by
  simp [incResult]

theorem decResult_toNat (x : Byte) : ((decResult x).toNat : Int) = ((x.toNat : Int) - 1) % 256 := by
  simp only [decResult, BitVec.toNat_ofInt]
  omega

/-! ### Selector codes -/

@[simp] theorem decodeReg_regCode (r : Reg) : decodeReg (regCode r) = some r := by cases r <;> rfl

@[simp] theorem decodePair_pairCode (p : Pair) : decodePair (pairCode p) = some p := by cases p <;> rfl

/-- The ports' decoders accept exactly the codes the well-formedness checks accept. -/
theorem decodeReg_isSome (c : RegCode) : (decodeReg c).isSome = regCodeOk c := by revert c; decide

theorem decodePair_isSome (c : PairCode) : (decodePair c).isSome = pairCodeOk c := by revert c; decide

/-! ### One step -/

/-- An instruction takes no call of the host. -/
theorem exec_pending {i : Instr} {s t : State} (h : exec i s = .next t) : t.pending = s.pending := by
  cases i <;> cases h <;> rfl

/-- What a next state can come from: no call was waiting, or the head of the calls was issued in order and performed. -/
theorem step_cases {s s' : State} (h : step s = .next s') :
    (s.pending = [] ∧ s' = s) ∨
    ∃ t rest, s.pending = .issue t :: rest ∧ perform t { s with pending := rest } = .next s' := by
  unfold step takeHostCall takeHostCallBy at h
  split at h
  · cases h; exact .inl ⟨‹_›, rfl⟩
  · cases h
  · exact .inr ⟨_, _, ‹_›, h⟩

theorem step_issue {s : State} {t : Transaction} {rest : List HostCall} (h : s.pending = .issue t :: rest) :
    step s = perform t { s with pending := rest } := by
  simp [step, takeHostCall, takeHostCallBy, h]

theorem step_idle {s : State} (h : s.pending = []) : step s = .next s := by
  simp [step, takeHostCall, takeHostCallBy, h]

theorem step_overlap {s : State} {t : Transaction} {rest : List HostCall} (h : s.pending = .overlap t :: rest) :
    step s = .refused .overlappingTransactions := by
  simp [step, takeHostCall, takeHostCallBy, h]

end Sys2Proof.Machine
end

