-- ==== Sys2Proof/Laws/PerInstr.lean ====
section
/-! SUPPORT. Statements about every instruction as written down, one lemma for each constructor. -/

/-- The word of an instruction passes the well-formedness check of words (30_encoding.md R94). -/
def Sys2Proof.Laws.EncodedWordLegal.Statement (i : Sys2Proof.Instr) : Prop :=
  (Sys2Proof.fieldsOf (Sys2Proof.encode i)).wellFormed = true

namespace Sys2Proof.Laws.EncodedWordLegal

theorem add (r : Reg) : Statement (.add r) := by cases r <;> rfl
theorem add16 (r : Reg) : Statement (.add16 r) := by cases r <;> rfl
theorem adc (r : Reg) : Statement (.adc r) := by cases r <;> rfl
theorem sub (r : Reg) : Statement (.sub r) := by cases r <;> rfl
theorem sbc (r : Reg) : Statement (.sbc r) := by cases r <;> rfl
theorem and (r : Reg) : Statement (.and r) := by cases r <;> rfl
theorem or (r : Reg) : Statement (.or r) := by cases r <;> rfl
theorem xor (r : Reg) : Statement (.xor r) := by cases r <;> rfl
theorem cp (r : Reg) : Statement (.cp r) := by cases r <;> rfl
theorem inc (r : Reg) : Statement (.inc r) := by cases r <;> rfl
theorem dec (r : Reg) : Statement (.dec r) := by cases r <;> rfl

end Sys2Proof.Laws.EncodedWordLegal
end

