-- ==== Sys2Proof/Laws/Ports.lean ====
section
/-! SUPPORT. What each port can do, one lemma a port, and what every transaction leaves alone. -/

namespace Sys2Proof.Machine

open Sys2Proof

/-! ### Pair writes -/

@[simp] theorem writePair_uninitRead (p : Pair) (v : Word16) (s : State) :
    (writePair p v s).uninitRead = s.uninitRead := by cases p <;> rfl

@[simp] theorem writePair_response (p : Pair) (v : Word16) (s : State) :
    (writePair p v s).response = s.response := by cases p <;> rfl

@[simp] theorem writePair_pending (p : Pair) (v : Word16) (s : State) :
    (writePair p v s).pending = s.pending := by cases p <;> rfl

/-- A pair write marks the cells behind the pair and no other. -/
theorem writePair_mark (p : Pair) (v : Word16) (s : State) (c : Cell) :
    (writePair p v s).written.get c = (s.written.get c || decide (c ∈ pairCells p)) := by
  rcases c with q | g
  · cases p <;> cases q <;> simp [writePair, pairCells]
  · cases p <;> cases g <;> simp [writePair, pairCells]

/-! ### The ports -/

theorem readRegisterPort_cases (c : RegCode) (s : State) :
    (decodeReg c = none ∧ readRegisterPort c s = respond ⟨.invalidRegister, none⟩ s) ∨
    ∃ r, decodeReg c = some r ∧
      readRegisterPort c s = respond ⟨.ok, some (.byte (s.regs.get r))⟩ (need [.reg r] s) := by
  unfold readRegisterPort
  cases decodeReg c with
  | none => exact .inl ⟨rfl, rfl⟩
  | some r => exact .inr ⟨r, rfl, rfl⟩

theorem writeRegisterPort_cases (c : RegCode) (v : Byte) (s : State) :
    (decodeReg c = none ∧ writeRegisterPort c v s = respond ⟨.invalidRegister, none⟩ s) ∨
    ∃ r, decodeReg c = some r ∧ writeRegisterPort c v s = respond ⟨.ok, none⟩ (writeReg r v s) := by
  unfold writeRegisterPort
  cases decodeReg c with
  | none => exact .inl ⟨rfl, rfl⟩
  | some r => exact .inr ⟨r, rfl, rfl⟩

theorem getPairPort_cases (c : PairCode) (s : State) :
    (decodePair c = none ∧ getPairPort c s = respond ⟨.invalidRegisterPair, none⟩ s) ∨
    ∃ p, decodePair c = some p ∧
      getPairPort c s = respond ⟨.ok, some (.pair (readPair s p))⟩ (need (pairCells p) s) := by
  unfold getPairPort
  cases decodePair c with
  | none => exact .inl ⟨rfl, rfl⟩
  | some p => exact .inr ⟨p, rfl, rfl⟩

theorem setPairPort_cases (c : PairCode) (v : Word16) (s : State) :
    (decodePair c = none ∧ setPairPort c v s = respond ⟨.invalidRegisterPair, none⟩ s) ∨
    ∃ p, decodePair c = some p ∧ setPairPort c v s = respond ⟨.ok, none⟩ (writePair p v s) := by
  unfold setPairPort
  cases decodePair c with
  | none => exact .inl ⟨rfl, rfl⟩
  | some p => exact .inr ⟨p, rfl, rfl⟩

theorem executePort_cases (iw : Byte) (s : State) :
    (∃ e, decode iw = .error e ∧ executePort iw s = .next (respond ⟨.unsupportedInstruction, none⟩ s)) ∨
    ∃ i, decode iw = .ok i ∧ executePort iw s = exec i s := by
  unfold executePort
  cases decode iw with
  | error e => exact .inl ⟨e, rfl, rfl⟩
  | ok i => exact .inr ⟨i, rfl, rfl⟩

/-- No transaction takes a call of the host. -/
theorem perform_pending {t : Transaction} {s s' : State} (h : perform t s = .next s') : s'.pending = s.pending := by
  cases t with
  | execute iw =>
    obtain ⟨_, _, e⟩ | ⟨i, _, e⟩ := executePort_cases iw s <;> rw [perform, e] at h
    · cases h; rfl
    · exact exec_pending h
  | readRegister c =>
    cases h; obtain ⟨_, e⟩ | ⟨_, _, e⟩ := readRegisterPort_cases c s <;> simp [e]
  | writeRegister c v =>
    cases h; obtain ⟨_, e⟩ | ⟨_, _, e⟩ := writeRegisterPort_cases c v s <;> simp [e]
  | getPair c =>
    cases h; obtain ⟨_, e⟩ | ⟨_, _, e⟩ := getPairPort_cases c s <;> simp [e]
  | setPair c v =>
    cases h; obtain ⟨_, e⟩ | ⟨_, _, e⟩ := setPairPort_cases c v s <;> simp [e]
  | flags => cases h; rfl

end Sys2Proof.Machine
end

