-- ==== Sys2Proof/Laws/Run.lean ====
section
/-! SUPPORT. A run of the machine, one step at a time. -/

namespace Sys2Proof.Machine

open Sys2Proof

@[simp] theorem runsTo_zero (s s' : State) : RunsTo 0 s s' ↔ s = s' := by
  constructor
  · intro h; cases h; rfl
  · rintro rfl; rfl

/-- A run of n + 1 steps of any machine is a step and a run of n. -/
theorem run_succ_iff (M : Host.Core) (n : Nat) (s s' : M.State) :
    M.run (n + 1) s = .next s' ↔ ∃ u, M.step s = .next u ∧ M.run n u = .next s' := by
  rw [Host.Core.run]
  cases M.step s <;> simp

/-- A run of n + 1 steps is a step and a run of n. -/
theorem runsTo_succ (n : Nat) (s s' : State) : RunsTo (n + 1) s s' ↔ ∃ u, step s = .next u ∧ RunsTo n u s' :=
  run_succ_iff core n s s'

/-- What every step keeps, every run keeps. -/
theorem runsTo_keeps {P : State → Prop} (hstep : ∀ s s', P s → step s = .next s' → P s') :
    ∀ (n : Nat) (s s' : State), P s → RunsTo n s s' → P s'
  | 0, s, s', hp, h => (runsTo_zero s s').1 h ▸ hp
  | n + 1, s, s', hp, h => by
    obtain ⟨u, hu, hr⟩ := (runsTo_succ n s s').1 h
    exact runsTo_keeps hstep n u s' (hstep s u hp hu) hr

end Sys2Proof.Machine
end

