-- ==== Sys2Proof/Laws/Strict.lean ====
section
/-! SUPPORT. What the strict step can do: it faults on an unwritten cell and is the plain step elsewhere. -/

namespace Sys2Proof.Machine

open Sys2Proof

theorem strictPerform_of_written {t : Transaction} {s : State} (h : firstUnwritten s.written (transactionReads t) = none) :
    strictPerform t s = perform t s := by
  simp [strictPerform, h]

theorem strictPerform_of_unwritten {t : Transaction} {s : State} {c : Cell}
    (h : firstUnwritten s.written (transactionReads t) = some c) : strictPerform t s = .fault (.uninitRead c) := by
  simp [strictPerform, h]

theorem strictStep_issue {s : State} {t : Transaction} {rest : List HostCall} (h : s.pending = .issue t :: rest) :
    strictStep s = strictPerform t { s with pending := rest } := by
  simp [strictStep, takeHostCallBy, h]

/-- The strict step, once and for all: the plain step, unless the transaction at the head reads an unwritten cell; then the
fault that names the first of them. -/
theorem strictStep_cases (s : State) :
    strictStep s = step s ∧
        (∀ t rest, s.pending = .issue t :: rest → firstUnwritten s.written (transactionReads t) = none) ∨
    ∃ t rest c, s.pending = .issue t :: rest ∧ firstUnwritten s.written (transactionReads t) = some c ∧
      strictStep s = .fault (.uninitRead c) := by
  rcases hp : s.pending with _ | ⟨⟨t⟩ | ⟨t⟩, rest⟩
  · exact .inl ⟨by rw [step_idle hp]; simp [strictStep, takeHostCallBy, hp], by simp⟩
  · cases hu : firstUnwritten s.written (transactionReads t) with
    | none =>
      refine .inl ⟨by rw [strictStep_issue hp, step_issue hp, strictPerform_of_written (s := { s with pending := rest }) hu], ?_⟩
      intro t' rest' h
      simp only [List.cons.injEq, HostCall.issue.injEq] at h
      exact h.1 ▸ hu
    | some c =>
      exact .inr ⟨t, rest, c, rfl, hu, by rw [strictStep_issue hp, strictPerform_of_unwritten (s := { s with pending := rest }) hu]⟩
  · exact .inl ⟨by rw [step_overlap hp]; simp [strictStep, takeHostCallBy, hp], by simp⟩

/-- A strict run of n + 1 steps is a strict step and a strict run of n. -/
theorem strictRunsTo_succ (n : Nat) (s s' : State) :
    StrictRunsTo (n + 1) s s' ↔ ∃ u, strictStep s = .next u ∧ StrictRunsTo n u s' :=
  run_succ_iff strictCore n s s'

/-- A faulting run of n + 1 steps of any machine faults at once or after a step. -/
theorem run_succ_fault_iff (M : Host.Core) (n : Nat) (s : M.State) (r : M.Fault) :
    M.run (n + 1) s = .fault r ↔ M.step s = .fault r ∨ ∃ u, M.step s = .next u ∧ M.run n u = .fault r := by
  rw [Host.Core.run]
  cases M.step s <;> simp

/-- A strict run of n + 1 steps that faults does so at once or after a step. -/
theorem strictRunFaults_succ (n : Nat) (s : State) (c : Cell) :
    StrictRunFaults (n + 1) s c ↔
      strictStep s = .fault (.uninitRead c) ∨ ∃ u, strictStep s = .next u ∧ StrictRunFaults n u c :=
  run_succ_fault_iff strictCore n s (.uninitRead c)

end Sys2Proof.Machine
end

