-- ==== Sys2Proof/Tests/Slice0.lean ====
section
/-! SUPPORT. Tests. The expected results are the vectors of 95_test_vectors.md and the tables of 30_encoding.md; the witnesses
meet the hypotheses of the statements. -/

namespace Sys2Proof.Tests

open Sys2Proof Sys2Proof.Machine

/-- Every cell written, with these contents. -/
def booted (r : RegFile) (f : Flags) : State :=
  { State.reset with
    regs := r, f := f
    written := ⟨⟨true, true, true, true, true, true, true⟩, ⟨true, true, true, true⟩⟩ }

/-- The registers and flags after one step that executes the word. -/
def after (iw : Byte) (s : State) : Option (RegFile × Flags) :=
  match step (issueFirst (.execute iw) s) with
  | .next t => some (t.regs, t.f)
  | _       => none

/-- The response of one step that performs the transaction. -/
def answer (t : Transaction) (s : State) : Option Response :=
  match step (issueFirst t s) with
  | .next u => u.response
  | _       => none

/-- The state after two transactions. -/
def afterTwo (t u : Transaction) (s : State) : Option State :=
  match step { s with pending := [.issue t, .issue u] } with
  | .next s' => match step s' with
    | .next s'' => some s''
    | _         => none
  | _        => none

/-! ## Well-formedness: each check refuses an ill-formed term -/

theorem test_reserved_kind_ill_formed : (WordFields.mk 0xB#4 false 0#3).kindOk = false := by decide
theorem test_reserved_bit_ill_formed : (WordFields.mk 0x0#4 true 0#3).rsvOk = false := by decide
theorem test_selector_seven_ill_formed : (WordFields.mk 0xA#4 false 7#3).selOk = false := by decide
theorem test_ill_formed_words_refused :
    (WordFields.mk 0xB#4 false 0#3).wellFormed = false ∧ (WordFields.mk 0x0#4 true 0#3).wellFormed = false ∧
    (WordFields.mk 0xA#4 false 7#3).wellFormed = false ∧ (WordFields.mk 0xA#4 false 6#3).wellFormed = true := by decide
theorem test_register_code_seven_ill_formed : regCodeOk 7#3 = false ∧ regCodeOk 6#3 = true := by decide
theorem test_pair_code_four_ill_formed : pairCodeOk 4#3 = false ∧ pairCodeOk 3#3 = true := by decide

/-! ## Decoding: one word of each kind, written out from 30_encoding.md R82 to R84 and R94 -/

theorem test_decode_add : decode 0b00000001#8 = .ok (.add .b) := by decide
theorem test_decode_add16 : decode 0b00010010#8 = .ok (.add16 .c) := by decide
theorem test_decode_adc : decode 0b00100011#8 = .ok (.adc .d) := by decide
theorem test_decode_sub : decode 0b00110100#8 = .ok (.sub .e) := by decide
theorem test_decode_sbc : decode 0b01000000#8 = .ok (.sbc .a) := by decide
theorem test_decode_and : decode 0b01010101#8 = .ok (.and .h) := by decide
theorem test_decode_or : decode 0b01100110#8 = .ok (.or .l) := by decide
theorem test_decode_xor : decode 0b01110000#8 = .ok (.xor .a) := by decide
theorem test_decode_cp : decode 0b10000001#8 = .ok (.cp .b) := by decide
theorem test_decode_inc : decode 0b10010110#8 = .ok (.inc .l) := by decide
theorem test_decode_dec : decode 0b10100101#8 = .ok (.dec .h) := by decide

/-- 95_test_vectors.md section 3. -/
theorem test_decode_illegal :
    decode 0x07#8 = .error .noRegister ∧ decode 0x08#8 = .error .reservedBit ∧ decode 0x0F#8 = .error .reservedBit ∧
    decode 0x5D#8 = .error .reservedBit ∧ decode 0xA7#8 = .error .noRegister ∧
    decode 0xB0#8 = .error (.reservedKind 0xB#4) ∧ decode 0xFF#8 = .error (.reservedKind 0xF#4) := by decide

/-- The words of 30_encoding.md R96's examples. -/
theorem test_encode_examples :
    encode (.add .b) = 0x01#8 ∧ encode (.add16 .c) = 0x12#8 ∧ encode (.sbc .a) = 0x40#8 ∧ encode (.xor .a) = 0x70#8 ∧
    encode (.inc .l) = 0x96#8 ∧ encode (.dec .h) = 0xA5#8 := by decide

theorem test_table_word : decodeTableWord 8 0x96 = some (.inc .l) ∧ decodeTableWord 8 0xB0 = none := by decide

/-! ## The assembler: 30_encoding.md R96 -/

theorem test_assemble_program :
    assemble ['S', 'B', 'C', ' ', 'A', '\n', 'i', 'n', 'c', ' ', ' ', 'l', ' ', ';', 'x', '\n'] = some [0x40#8, 0x96#8] := by
  decide
theorem test_assemble_refuses_other_text :
    assembleLine ['A', 'D', 'D', ' ', 'F'] = .malformed ∧ assembleLine ['N', 'O', 'P'] = .malformed := by decide

/-! ## The instructions: 95_test_vectors.md section 2 -/

theorem test_add_wraps : after 0x01#8 (booted ⟨0xFF#8, 0x01#8, 0, 0, 0, 0, 0⟩ ⟨false, true, false, false⟩) =
    some (⟨0x00#8, 0x01#8, 0, 0, 0, 0, 0⟩, ⟨true, false, true, true⟩) := by decide
theorem test_add_self : after 0x00#8 (booted ⟨0x88#8, 0, 0, 0, 0, 0, 0⟩ ⟨false, false, false, true⟩) =
    some (⟨0x10#8, 0, 0, 0, 0, 0, 0⟩, ⟨false, false, true, true⟩) := by decide
theorem test_add16_wraps_without_zero :
    after 0x12#8 (booted ⟨0, 0, 0x01#8, 0, 0, 0xFF#8, 0xFF#8⟩ ⟨true, true, false, false⟩) =
    some (⟨0, 0, 0x01#8, 0, 0, 0x00#8, 0x00#8⟩, ⟨false, false, true, true⟩) := by decide
theorem test_add16_old_h : after 0x15#8 (booted ⟨0, 0, 0, 0, 0, 0x12#8, 0x34#8⟩ ⟨true, true, true, true⟩) =
    some (⟨0, 0, 0, 0, 0, 0x12#8, 0x46#8⟩, ⟨false, false, false, false⟩) := by decide
theorem test_adc_whole_turn : after 0x22#8 (booted ⟨0, 0, 0xFF#8, 0, 0, 0, 0⟩ ⟨false, false, false, true⟩) =
    some (⟨0x00#8, 0, 0xFF#8, 0, 0, 0, 0⟩, ⟨true, false, true, true⟩) := by decide
theorem test_adc_self : after 0x20#8 (booted ⟨0x80#8, 0, 0, 0, 0, 0, 0⟩ ⟨false, false, false, true⟩) =
    some (⟨0x01#8, 0, 0, 0, 0, 0, 0⟩, ⟨false, false, false, true⟩) := by decide
theorem test_sub_underflow : after 0x31#8 (booted ⟨0x00#8, 0x01#8, 0, 0, 0, 0, 0⟩ ⟨false, false, false, false⟩) =
    some (⟨0xFF#8, 0x01#8, 0, 0, 0, 0, 0⟩, ⟨false, true, true, true⟩) := by decide
theorem test_sub_borrow_without_half : after 0x34#8 (booted ⟨0x3E#8, 0, 0, 0, 0x40#8, 0, 0⟩ ⟨false, false, true, false⟩) =
    some (⟨0xFE#8, 0, 0, 0, 0x40#8, 0, 0⟩, ⟨false, true, false, true⟩) := by decide
theorem test_sbc_whole_turn : after 0x43#8 (booted ⟨0x3B#8, 0, 0, 0xFF#8, 0, 0, 0⟩ ⟨false, false, false, true⟩) =
    some (⟨0x3B#8, 0, 0, 0xFF#8, 0, 0, 0⟩, ⟨false, true, true, true⟩) := by decide
theorem test_sbc_no_borrow : after 0x45#8 (booted ⟨0x3B#8, 0, 0, 0, 0, 0x2A#8, 0⟩ ⟨false, false, false, true⟩) =
    some (⟨0x10#8, 0, 0, 0, 0, 0x2A#8, 0⟩, ⟨false, true, false, false⟩) := by decide
theorem test_and_half_carry_fixed : after 0x53#8 (booted ⟨0x3C#8, 0, 0, 0x0F#8, 0, 0, 0⟩ ⟨false, false, false, true⟩) =
    some (⟨0x0C#8, 0, 0, 0x0F#8, 0, 0, 0⟩, ⟨false, false, true, false⟩) := by decide
theorem test_and_zero : after 0x50#8 (booted ⟨0x00#8, 0, 0, 0, 0, 0, 0⟩ ⟨false, false, false, true⟩) =
    some (⟨0x00#8, 0, 0, 0, 0, 0, 0⟩, ⟨true, false, true, false⟩) := by decide
theorem test_or_joins : after 0x62#8 (booted ⟨0x12#8, 0, 0x40#8, 0, 0, 0, 0⟩ ⟨true, true, true, true⟩) =
    some (⟨0x52#8, 0, 0x40#8, 0, 0, 0, 0⟩, ⟨false, false, false, false⟩) := by decide
theorem test_or_zero : after 0x61#8 (booted ⟨0x00#8, 0x00#8, 0, 0, 0, 0, 0⟩ ⟨false, false, false, true⟩) =
    some (⟨0x00#8, 0x00#8, 0, 0, 0, 0, 0⟩, ⟨true, false, false, false⟩) := by decide
theorem test_xor_toggles : after 0x73#8 (booted ⟨0xFF#8, 0, 0, 0x0F#8, 0, 0, 0⟩ ⟨true, true, true, true⟩) =
    some (⟨0xF0#8, 0, 0, 0x0F#8, 0, 0, 0⟩, ⟨false, false, false, false⟩) := by decide
theorem test_xor_self : after 0x70#8 (booted ⟨0x5A#8, 0, 0, 0, 0, 0, 0⟩ ⟨false, true, true, true⟩) =
    some (⟨0x00#8, 0, 0, 0, 0, 0, 0⟩, ⟨true, false, false, false⟩) := by decide
theorem test_cp_keeps_a : after 0x81#8 (booted ⟨0x3C#8, 0x40#8, 0, 0, 0, 0, 0⟩ ⟨true, false, true, false⟩) =
    some (⟨0x3C#8, 0x40#8, 0, 0, 0, 0, 0⟩, ⟨false, true, false, true⟩) := by decide
theorem test_cp_half_borrow : after 0x84#8 (booted ⟨0x00#8, 0, 0, 0, 0xFF#8, 0, 0⟩ ⟨true, false, false, false⟩) =
    some (⟨0x00#8, 0, 0, 0, 0xFF#8, 0, 0⟩, ⟨false, true, true, true⟩) := by decide
theorem test_inc_wraps_and_keeps_carry : after 0x91#8 (booted ⟨0, 0xFF#8, 0, 0, 0, 0, 0⟩ ⟨false, true, false, true⟩) =
    some (⟨0, 0x00#8, 0, 0, 0, 0, 0⟩, ⟨true, false, true, true⟩) := by decide
theorem test_inc_l : after 0x96#8 (booted ⟨0, 0, 0, 0, 0, 0, 0x3E#8⟩ ⟨true, true, true, true⟩) =
    some (⟨0, 0, 0, 0, 0, 0, 0x3F#8⟩, ⟨false, false, false, true⟩) := by decide
theorem test_dec_wraps_without_carry : after 0xA4#8 (booted ⟨0, 0, 0, 0, 0x00#8, 0, 0⟩ ⟨true, false, false, false⟩) =
    some (⟨0, 0, 0, 0, 0xFF#8, 0, 0⟩, ⟨false, true, true, false⟩) := by decide
theorem test_dec_to_zero : after 0xA5#8 (booted ⟨0, 0, 0, 0, 0, 0x01#8, 0⟩ ⟨false, false, true, true⟩) =
    some (⟨0, 0, 0, 0, 0, 0x00#8, 0⟩, ⟨true, true, false, true⟩) := by decide

/-! ## The codec and the ports: 95_test_vectors.md section 4 -/

theorem test_encode_flags : encodeFlags ⟨true, false, true, false⟩ = 0xA0#8 ∧
    encodeFlags ⟨true, true, true, true⟩ = 0xF0#8 := by decide
theorem test_decode_flags : decodeFlags 0x5A#8 = ⟨false, true, false, true⟩ ∧
    decodeFlags 0x0F#8 = ⟨false, false, false, false⟩ := by decide
theorem test_af_low_nibble_discarded :
    (afterTwo (.setPair 0#3 0x12FF#16) (.getPair 0#3) State.reset).map State.response =
      some (some ⟨.ok, some (.pair 0x12F0#16)⟩) := by decide
theorem test_af_writes_all_flags :
    (afterTwo (.setPair 0#3 0x12FF#16) .flags State.reset).map State.response =
      some (some ⟨.ok, some (.flags ⟨true, true, true, true⟩)⟩) := by decide
theorem test_pair_byte_order :
    (afterTwo (.setPair 2#3 0xBEEF#16) (.readRegister 3#3) State.reset).map State.response =
      some (some ⟨.ok, some (.byte 0xBE#8)⟩) := by decide
theorem test_written_registers_form_the_pair :
    (afterTwo (.writeRegister 5#3 0x80#8) (.writeRegister 6#3 0x01#8) State.reset).map
      (fun s => answer (.getPair 3#3) s) = some (some ⟨.ok, some (.pair 0x8001#16)⟩) := by decide
theorem test_bc_write_leaves_flags :
    (afterTwo (.setPair 0#3 0x0010#16) (.setPair 1#3 0x1111#16) State.reset).map (fun s => answer .flags s) =
      some (some ⟨.ok, some (.flags ⟨false, false, false, true⟩)⟩) := by decide
theorem test_invalid_codes :
    answer (.getPair 4#3) State.reset = some ⟨.invalidRegisterPair, none⟩ ∧
    answer (.setPair 5#3 0x1234#16) State.reset = some ⟨.invalidRegisterPair, none⟩ ∧
    answer (.readRegister 7#3) State.reset = some ⟨.invalidRegister, none⟩ ∧
    answer (.writeRegister 7#3 0x00#8) State.reset = some ⟨.invalidRegister, none⟩ ∧
    answer (.execute 0xB0#8) State.reset = some ⟨.unsupportedInstruction, none⟩ := by decide
theorem test_unwritten_read_recorded :
    (afterTwo (.readRegister 0#3) (.readRegister 1#3) State.reset).map State.uninitRead = some (some (.reg .a)) := by decide
theorem test_inc_leaves_carry_unwritten :
    ((afterTwo (.writeRegister 1#3 0xFF#8) (.execute 0x91#8) State.reset).bind
      (fun s => afterTwo .flags .flags s)).map State.uninitRead = some (some (.flag .cy)) := by decide
/-- The spec's own rule: these vectors fault. -/
theorem test_strict_read_right_after_reset :
    strictStep (issueFirst (.readRegister 0#3) State.reset) = .fault (.uninitRead (.reg .a)) := rfl
theorem test_strict_add_of_unwritten_b :
    Host.Core.run strictCore 2 { State.reset with pending := [.issue (.setPair 0#3 0#16), .issue (.execute 0x01#8)] } =
      .fault (.uninitRead (.reg .b)) := rfl
theorem test_strict_flags_after_inc :
    Host.Core.run strictCore 3 { State.reset with
      pending := [.issue (.writeRegister 1#3 0xFF#8), .issue (.execute 0x91#8), .issue .flags] } =
      .fault (.uninitRead (.flag .cy)) := rfl
theorem test_strict_illegal_word_right_after_reset :
    strictStep (issueFirst (.execute 0xB0#8) State.reset) =
      .next { State.reset with response := some ⟨.unsupportedInstruction, none⟩ } := rfl
theorem test_error_records_nothing :
    (afterTwo (.execute 0xB0#8) (.execute 0x07#8) State.reset).map State.uninitRead = some none := by decide
theorem test_status_codes :
    [Status.ok, .unsupportedInstruction, .invalidRegisterPair, .invalidRegister].map statusCode = [0, 1, 2, 3] := by decide

/-! ## Witnesses: states and operands that meet the hypotheses of the statements together -/

/-- A booted block with this call of the host to come. -/
def ready (calls : List HostCall) : State :=
  { booted ⟨0x10#8, 0xFF#8, 0x02#8, 0x03#8, 0x04#8, 0x05#8, 0x06#8⟩ ⟨true, false, true, true⟩ with pending := calls }

theorem ready_allWritten (calls : List HostCall) : (ready calls).AllWritten := by
  rintro (r | g)
  · cases r <;> rfl
  · cases g <;> rfl

theorem witness_StepRunsTheDecodedInstruction :
    (ready [.issue (.execute 0x01#8)]).pending = [.issue (.execute 0x01#8)] ∧ decode 0x01#8 = .ok (.add .b) := by decide

/-- One word for each of the three clauses, at its boundary. -/
theorem witness_IllegalWordIsUnsupportedAndChangesNothing :
    (ready [.issue (.execute 0xB0#8)]).pending = [.issue (.execute 0xB0#8)] ∧ (0xB0#8).toNat / 16 ≥ 0xB ∧
    (ready [.issue (.execute 0x08#8)]).pending = [.issue (.execute 0x08#8)] ∧ (0x08#8).getLsbD 3 = true ∧
    (ready [.issue (.execute 0xA7#8)]).pending = [.issue (.execute 0xA7#8)] ∧ (0xA7#8).toNat % 8 = 7 := by decide

theorem witness_OnlyIllegalWordsMakeExecuteFail :
    (∃ i, decode 0xA6#8 = .ok i) ∧ (¬ ∃ i, decode 0xA7#8 = .ok i) ∧
    (ready [.issue (.execute 0xA6#8)]).pending = [.issue (.execute 0xA6#8)] ∧
    (ready [.issue (.execute 0xA7#8)]).pending = [.issue (.execute 0xA7#8)] := by
  refine ⟨⟨.dec .l, by decide⟩, ?_, rfl, rfl⟩
  rintro ⟨i, h⟩
  rw [show decode 0xA7#8 = .error .noRegister by decide] at h
  cases h

/-- All cells are written in it: the hypotheses of the eleven instruction statements, of FlagsPortReturnsTheSnapshot and of
GetPairReturnsTheView, for every operand. -/
theorem witness_instruction_statements (r : Reg) :
    (ready []).written.get (.reg .a) = true ∧ (ready []).written.get (.reg .h) = true ∧
    (ready []).written.get (.reg .l) = true ∧ (ready []).written.get (.reg r) = true ∧
    (ready []).written.get (.flag .cy) = true :=
  ⟨rfl, rfl, rfl, ready_allWritten [] (.reg r), rfl⟩

/-- Two states that differ, but not in the cells ADD B reads. -/
theorem witness_ResultsDependOnlyOnTheCellsRead :
    (∀ c ∈ cellsRead (.add .b), SameCell (ready []) { ready [] with f := ⟨false, true, false, false⟩ } c) ∧
    ready [] ≠ { ready [] with f := ⟨false, true, false, false⟩ } := by
  refine ⟨?_, by decide⟩
  intro c hc
  simp [cellsRead] at hc
  rcases hc with rfl | rfl <;> rfl

/-- A witness of each clause with hypotheses. -/
theorem witness_OnlyAdcSbcAndTheAFPortsReadFlags :
    (∀ r, (Instr.cp .b) ≠ .adc r ∧ (Instr.cp .b) ≠ .sbc r) ∧
    (⟨false, true, false, true⟩ : Flags).cy = (ready []).f.cy ∧
    (∀ iw, Transaction.getPair 1#3 ≠ .execute iw) ∧ Transaction.getPair 1#3 ≠ .flags ∧
    Transaction.getPair 1#3 ≠ .getPair (pairCode .af) := by
  refine ⟨by intro r; exact ⟨by simp, by simp⟩, rfl, by simp, by decide, by decide⟩

theorem witness_IncAndDecAloneKeepTheCarry :
    (∀ r, (Instr.adc .b) ≠ .inc r ∧ (Instr.adc .b) ≠ .dec r) ∧ (⟨false, true, false, true⟩ : Flags).cy = (ready []).f.cy ∧
    (∀ r, (Instr.add .b) ≠ .inc r ∧ (Instr.add .b) ≠ .dec r) ∧ (∀ r, (Instr.add .b) ≠ .adc r ∧ (Instr.add .b) ≠ .sbc r) := by
  refine ⟨?_, rfl, ?_, ?_⟩ <;> intro r <;> exact ⟨by simp, by simp⟩

theorem witness_CarryPassesThroughIncAndDec :
    (∀ i ∈ [Instr.inc .a, .dec .b], ∃ r, i = .inc r ∨ i = .dec r) ∧
    (ready [.issue (.execute 0x90#8), .issue (.execute 0xA1#8), .issue .flags]).pending =
      [Instr.inc .a, .dec .b].map (fun i => HostCall.issue (.execute (encode i))) ++ [.issue .flags] := by
  refine ⟨?_, by decide⟩
  intro i hi
  simp at hi
  rcases hi with rfl | rfl
  · exact ⟨.a, .inl rfl⟩
  · exact ⟨.b, .inr rfl⟩

theorem witness_CarryAndFFMoveByAWholeTurn :
    (ready []).regs.get .b = 0xFF#8 ∧ (ready []).f.cy = true := by decide

/-- Both clauses, at the last register's code and the code after it. -/
theorem witness_ReadRegisterReturnsTheRegister :
    (ready [.issue (.readRegister 6#3)]).pending = [.issue (.readRegister 6#3)] ∧ 6#3 = regCode .l ∧
    (ready [.issue (.readRegister 6#3)]).written.get (.reg .l) = true ∧
    (ready [.issue (.readRegister 7#3)]).pending = [.issue (.readRegister 7#3)] := by decide

theorem witness_WriteRegisterWritesOneRegister :
    (ready [.issue (.writeRegister 6#3 0xFF#8)]).pending = [.issue (.writeRegister 6#3 0xFF#8)] ∧ 6#3 = regCode .l ∧
    (ready [.issue (.writeRegister 7#3 0xFF#8)]).pending = [.issue (.writeRegister 7#3 0xFF#8)] := by decide

theorem witness_GetPairReturnsTheView (p : Pair) :
    (ready [.issue (.getPair (pairCode p))]).pending = [.issue (.getPair (pairCode p))] ∧
    ∀ c ∈ pairCells p, (ready [.issue (.getPair (pairCode p))]).written.get c = true :=
  ⟨rfl, fun c _ => ready_allWritten _ c⟩

/-- Every pair code reaches exactly one clause; code 4 is the first of the last one. -/
theorem witness_SetPairWritesTheTwoHalves (c : PairCode) :
    (ready [.issue (.setPair c 0x12FF#16)]).pending = [.issue (.setPair c 0x12FF#16)] ∧
    (c = 0#3 ∨ c = 1#3 ∨ c = 2#3 ∨ c = 3#3 ∨ c.toNat > 3) := by
  refine ⟨rfl, ?_⟩
  revert c
  decide

theorem witness_InvalidPairCodesFailFast :
    4 ≤ (4#3).toNat ∧ (ready [.issue (.getPair 4#3)]).pending = [.issue (.getPair 4#3)] ∧
    4 ≤ (7#3).toNat ∧ (ready [.issue (.setPair 7#3 0x1234#16)]).pending = [.issue (.setPair 7#3 0x1234#16)] := by decide

theorem witness_SetPairThenGetPairReturnsTheValue (p : Pair) :
    (ready [.issue (.setPair (pairCode p) 0xFFFF#16), .issue (.getPair (pairCode p))]).pending =
      [.issue (.setPair (pairCode p) 0xFFFF#16), .issue (.getPair (pairCode p))] := rfl

theorem witness_FlagsPortReturnsTheSnapshot :
    (ready [.issue .flags]).pending = [.issue .flags] ∧ ∀ g, (ready [.issue .flags]).written.get (.flag g) = true :=
  ⟨rfl, fun g => ready_allWritten _ (.flag g)⟩

theorem witness_ReadsAreRepeatableAndWritesIdempotent :
    (∀ iw, Transaction.setPair 0#3 0x12FF#16 ≠ .execute iw) ∧ (∀ iw, Transaction.readRegister 0#3 ≠ .execute iw) := by
  exact ⟨by simp, by simp⟩

theorem witness_EachPortReturnsItsOwnStatuses (t : Transaction) : (ready [.issue t]).pending = [.issue t] := rfl

/-- A failing transaction, for ErrorStatusChangesNothing and FailedTransactionLeavesNoTrace. -/
theorem witness_failed_transaction :
    ∃ s', step (ready [.issue (.getPair 4#3), .issue .flags]) = .next s' ∧
      s'.response = some ⟨.invalidRegisterPair, none⟩ ∧ Status.invalidRegisterPair ≠ .ok :=
  ⟨_, rfl, rfl, by decide⟩

theorem witness_OnlyAnOverlappingCallStopsTheBlock :
    step (ready [.overlap .flags]) = .refused .overlappingTransactions := rfl

theorem witness_TransactionsAreTakenInOrderAndComplete :
    (ready [.issue .flags, .issue (.execute 0x01#8), .overlap .flags]).pending =
      [Transaction.flags, .execute 0x01#8].map .issue ++ [.overlap .flags] := rfl

theorem witness_OrderedHostNeverSeesAStop :
    (ready [.issue .flags]).HostInOrder ∧ (ready []).HostInOrder ∧ (ready []).pending = [] := by
  refine ⟨?_, ?_, rfl⟩
  · intro h hh
    simp [ready] at hh
    exact ⟨_, hh⟩
  · intro h hh
    simp [ready] at hh

/-- From reset, a step with a mark set before it. -/
theorem witness_MarksNeverReturnToFalse :
    ∃ s', step (ready [.issue .flags]) = .next s' ∧ (ready [.issue .flags]).written.get (.reg .a) = true :=
  ⟨_, rfl, rfl⟩

theorem witness_UnmarkedCellsAreNeverWritten :
    ∃ s', RunsTo 1 { State.reset with pending := [.issue (.writeRegister 1#3 0xFF#8)] } s' ∧
      s'.written.get (.reg .c) = false ∧ s'.written.get (.reg .b) = true :=
  ⟨_, (runsTo_succ 0 _ _).2 ⟨_, rfl, (runsTo_zero _ _).2 rfl⟩, rfl, rfl⟩

theorem witness_UnwrittenReadIsRecordedOnceAndKept :
    ({ State.reset with pending := [.issue .flags] } : State).pending = [.issue .flags] := rfl

theorem witness_FourSetPairsWriteEveryCell (v : Word16) :
    [Transaction.setPair (pairCode .hl) v, .setPair (pairCode .de) v, .setPair (pairCode .bc) v,
      .setPair (pairCode .af) v].Perm
      [.setPair (pairCode .af) v, .setPair (pairCode .bc) v, .setPair (pairCode .de) v, .setPair (pairCode .hl) v] ∧
    ({ State.reset with pending := [.issue (.setPair (pairCode .hl) v), .issue (.setPair (pairCode .de) v),
      .issue (.setPair (pairCode .bc) v), .issue (.setPair (pairCode .af) v)] } : State).pending =
      [Transaction.setPair (pairCode .hl) v, .setPair (pairCode .de) v, .setPair (pairCode .bc) v,
        .setPair (pairCode .af) v].map .issue ++ [] :=
  ⟨List.reverse_perm [Transaction.setPair (pairCode .af) v, .setPair (pairCode .bc) v, .setPair (pairCode .de) v,
    .setPair (pairCode .hl) v], rfl⟩

theorem witness_BootedBlockStaysDefined :
    (ready [.issue (.execute 0x01#8)]).AllWritten ∧ (ready [.issue (.execute 0x01#8)]).Defined ∧
    ∃ s', step (ready [.issue (.execute 0x01#8)]) = .next s' :=
  ⟨ready_allWritten _, rfl, _, rfl⟩

/-- Two reset states that differ in the contents of C, and a safe run that writes B. -/
theorem witness_ResetContentsNeverReachASafeRun :
    ∃ s', AgreeOnWritten { State.reset with pending := [.issue (.writeRegister 1#3 0xFF#8)] }
        { State.reset with
          regs := { State.reset.regs with c := 0x77#8 }, pending := [.issue (.writeRegister 1#3 0xFF#8)] } ∧
      SafeRun 1 { State.reset with pending := [.issue (.writeRegister 1#3 0xFF#8)] } s' := by
  refine ⟨_, ⟨rfl, rfl, rfl, rfl, ?_⟩, (runsTo_succ 0 _ _).2 ⟨_, rfl, (runsTo_zero _ _).2 rfl⟩, rfl⟩
  rintro (r | g) h
  · cases r <;> cases h
  · cases g <;> cases h

theorem witness_StepKeepsTheResponseLegal :
    (ready [.issue (.getPair 4#3)]).ResponseLegal ∧ ∃ s', step (ready [.issue (.getPair 4#3)]) = .next s' :=
  ⟨by intro r h; simp [ready, booted, State.reset] at h, _, rfl⟩

theorem witness_StepKeepsTheFlagMarksTogether :
    State.FlagMarksTogether { State.reset with pending := [.issue (.execute 0x91#8)] } ∧
    ∃ s', step { State.reset with pending := [.issue (.execute 0x91#8)] } = .next s' ∧
      s'.written.get (.flag .z) = true ∧ s'.written.get (.flag .cy) = false :=
  ⟨⟨rfl, rfl, by intro h; cases h⟩, _, rfl, rfl, rfl⟩

/-- Both clauses: ADD B with neither cell written, and with both written. -/
theorem witness_StrictStepFaultsExactlyOnAnUnwrittenRead :
    ({ State.reset with pending := [.issue (.execute 0x01#8)] } : State).pending = [.issue (.execute 0x01#8)] ∧
    (ready [.issue (.execute 0x01#8)]).pending = [.issue (.execute 0x01#8)] ∧
    ∀ c ∈ transactionReads (.execute 0x01#8), (ready [.issue (.execute 0x01#8)]).written.get c = true :=
  ⟨rfl, rfl, fun c _ => ready_allWritten _ c⟩

/-- A run that ends under the spec's own rule. -/
theorem witness_StrictRunsAreTheSafeRuns :
    (ready [.issue (.execute 0x01#8)]).Defined ∧ ∃ s', StrictRunsTo 1 (ready [.issue (.execute 0x01#8)]) s' :=
  ⟨rfl, _, (strictRunsTo_succ 0 _ _).2 ⟨_, rfl, rfl⟩⟩

/-- A run that ends with B recorded. -/
theorem witness_StrictRunFaultsWhereTheRecordIsMade :
    State.Defined { State.reset with pending := [.issue (.readRegister 1#3)] } ∧
    ∃ s', RunsTo 1 { State.reset with pending := [.issue (.readRegister 1#3)] } s' ∧ s'.uninitRead = some (.reg .b) :=
  ⟨rfl, _, (runsTo_succ 0 _ _).2 ⟨_, rfl, rfl⟩, rfl⟩

end Sys2Proof.Tests
end

/-! # Family 10_state.md

What every instruction does to the state is said once, as one of four forms of write (`WriteBack`); its marks, its frame and
its dependence on the cells read follow for all eleven instructions from the four forms. -/

namespace Sys2Proof.Machine

/-! ## The four forms of write of the dispatch table -/

@[simp] theorem sameCell_reg (s t : State) (r : Reg) : SameCell s t (.reg r) ↔ s.regs.get r = t.regs.get r := Iff.rfl

@[simp] theorem sameCell_flag (s t : State) (g : FlagName) : SameCell s t (.flag g) ↔ s.f.get g = t.f.get g := Iff.rfl

/-- What an instruction writes (45_dispatcher.md R242): A, HL or no register with all four flags, or the selected register
with Z, N and HC. `exec_writeBack` ties it to `exec`. -/
inductive WriteBack where
  | accumulator (v : Byte) (f : Flags)
  | hl (v : Word16) (f : Flags)
  | flagsOnly (f : Flags)
  | register (r : Reg) (v : Byte) (z n hc : Bool)

namespace WriteBack

/-- The state after the write. -/
def apply : WriteBack → State → State
  | accumulator v f, s => writeFlags f (writeReg .a v s)
  | hl v f, s => writeFlags f (writePair .hl v s)
  | flagsOnly f, s => writeFlags f s
  | register r v z n hc, s => writeFlagsButCarry z n hc (writeReg r v s)

/-- The cells written, in the order of `cellsWritten`. -/
def cells : WriteBack → List Cell
  | accumulator _ _ => [.reg .a, .flag .z, .flag .n, .flag .hc, .flag .cy]
  | hl _ _ => [.reg .h, .reg .l, .flag .z, .flag .n, .flag .hc, .flag .cy]
  | flagsOnly _ => [.flag .z, .flag .n, .flag .hc, .flag .cy]
  | register r _ _ _ _ => [.reg r, .flag .z, .flag .n, .flag .hc]

theorem apply_mark (w : WriteBack) (s : State) (c : Cell) :
    (w.apply s).written.get c = (s.written.get c || decide (c ∈ w.cells)) := by
  cases w with
  | accumulator v f =>
    rw [apply, writeFlags_mark, writeReg_mark]
    simp [cells, Bool.or_assoc]
  | hl v f =>
    rw [apply, writeFlags_mark, writePair_mark]
    simp [cells, pairCells, Bool.or_assoc]
  | flagsOnly f => rw [apply, writeFlags_mark, cells]
  | register r v z n hc =>
    rw [apply, writeFlagsButCarry_mark, writeReg_mark]
    simp [cells, Bool.or_assoc]

/-- A cell not written keeps its contents. -/
theorem apply_frame (w : WriteBack) (s : State) {c : Cell} (hc : c ∉ w.cells) : SameCell s (w.apply s) c := by
  cases c with
  | reg q =>
    cases w with
    | accumulator v f =>
      have hq : q ≠ .a := by simpa [cells] using hc
      simp [apply, PerReg.get_set_other _ _ hq]
    | hl v f =>
      have hq : q ≠ .h ∧ q ≠ .l := by simpa [cells] using hc
      simp [apply, writePair, PerReg.get_set_other _ _ hq.1, PerReg.get_set_other _ _ hq.2]
    | flagsOnly f => rfl
    | register r v z n hc =>
      have hq : q ≠ r := by simpa [cells] using hc
      simp [apply, PerReg.get_set_other _ _ hq]
  | flag g =>
    cases w with
    | register r v z n b =>
      obtain rfl : g = .cy := by cases g <;> simp [cells] at hc ⊢
      rfl
    | _ => cases g <;> simp [cells] at hc

/-- A written cell holds the same whatever the state it is written into. -/
theorem apply_same (w : WriteBack) (s t : State) {c : Cell} (hc : c ∈ w.cells) : SameCell (w.apply s) (w.apply t) c := by
  cases c with
  | reg q =>
    cases w with
    | accumulator v f =>
      obtain rfl : q = .a := by simpa [cells] using hc
      simp [apply]
    | hl v f =>
      obtain rfl | rfl : q = .h ∨ q = .l := by simpa [cells] using hc
      all_goals simp [apply, writePair]
    | flagsOnly f => simp [cells] at hc
    | register r v z n hc =>
      obtain rfl : q = r := by simpa [cells] using hc
      simp [apply]
  | flag g =>
    cases w with
    | register r v z n hc =>
      have hg : g ≠ .cy := by rintro rfl; simp [cells] at hc
      cases g with
      | cy => exact absurd rfl hg
      | z | n | hc => rfl
    | _ => rfl

end WriteBack

/-! ## What every instruction does -/

/-- Two states that agree on the cells an instruction reads get the same write, which is to the cells of the table. -/
theorem exec_writeBack_of_reads {i : Instr} {s t : State} (h : ∀ c ∈ cellsRead i, SameCell s t c) :
    ∃ w : WriteBack, w.cells = cellsWritten i ∧
      exec i s = .next (respond ⟨.ok, none⟩ (w.apply (need (cellsRead i) s))) ∧
      exec i t = .next (respond ⟨.ok, none⟩ (w.apply (need (cellsRead i) t))) := by
  have hreg (q : Reg) (hq : .reg q ∈ cellsRead i) : readReg s q = readReg t q := h (.reg q) hq
  cases i with
  | add16 r =>
    have hhl : hlOperand s = hlOperand t :=
      congrArg₂ joinBytes (hreg .h (by simp [cellsRead])) (hreg .l (by simp [cellsRead]))
    have hv : wideOperand s r = wideOperand t r := congrArg _ (hreg r (by simp [cellsRead]))
    exact ⟨.hl _ _, rfl, rfl, by rw [exec, execAdd16, ← hhl, ← hv]; rfl⟩
  | adc r | sbc r =>
    have ha : accumulator s = accumulator t := hreg .a (by simp [cellsRead])
    have hv := hreg r (by simp [cellsRead])
    have hcin : carryIn s = carryIn t := congrArg Bool.toNat (h (.flag .cy) (by simp [cellsRead]))
    exact ⟨.accumulator _ _, rfl, rfl, by simp only [exec, execAdc, execSbc, ← ha, ← hv, ← hcin]; rfl⟩
  | cp r =>
    have ha : accumulator s = accumulator t := hreg .a (by simp [cellsRead])
    have hv := hreg r (by simp [cellsRead])
    exact ⟨.flagsOnly _, rfl, rfl, by rw [exec, execCp, ← ha, ← hv]; rfl⟩
  | inc r | dec r =>
    have hv := hreg r (by simp [cellsRead])
    exact ⟨.register _ _ _ _ _, rfl, rfl, by simp only [exec, execInc, execDec, ← hv]; rfl⟩
  | add r | sub r | and r | or r | xor r =>
    have ha : accumulator s = accumulator t := hreg .a (by simp [cellsRead])
    have hv := hreg r (by simp [cellsRead])
    exact ⟨.accumulator _ _, rfl, rfl, by
      simp only [exec, execAdd, execSub, execAnd, execOr, execXor, ← ha, ← hv]; rfl⟩

/-- An instruction is one write to the cells of the table, after `need` of the cells it reads, and returns OK. -/
theorem exec_writeBack (i : Instr) (s : State) :
    ∃ w : WriteBack, w.cells = cellsWritten i ∧
      exec i s = .next (respond ⟨.ok, none⟩ (w.apply (need (cellsRead i) s))) := by
  obtain ⟨w, hw, hs, -⟩ := exec_writeBack_of_reads (i := i) (s := s) (t := s) (fun c _ => by cases c <;> rfl)
  exact ⟨w, hw, hs⟩

theorem exec_completes (i : Instr) (s : State) : ∃ t, exec i s = .next t := by
  obtain ⟨w, -, hs⟩ := exec_writeBack i s
  exact ⟨_, hs⟩

/-- An instruction marks the cells it writes and no other. -/
theorem exec_mark {i : Instr} {s t : State} (h : exec i s = .next t) (c : Cell) :
    t.written.get c = (s.written.get c || decide (c ∈ cellsWritten i)) := by
  obtain ⟨w, hw, hs⟩ := exec_writeBack i s
  cases hs.symm.trans h
  rw [respond_written, w.apply_mark, need_written, hw]

/-- An instruction leaves the cells it does not write as they are. -/
theorem exec_frame {i : Instr} {s t : State} (h : exec i s = .next t) {c : Cell} (hc : c ∉ cellsWritten i) :
    SameCell s t c := by
  obtain ⟨w, hw, hs⟩ := exec_writeBack i s
  cases hs.symm.trans h
  have := w.apply_frame (need (cellsRead i) s) (hw ▸ hc)
  cases c <;> exact this

/-- What an instruction writes depends on the cells it reads and on nothing else. -/
theorem exec_same_of_reads {i : Instr} {s t s' t' : State} (hr : ∀ c ∈ cellsRead i, SameCell s t c)
    (hs : exec i s = .next s') (ht : exec i t = .next t') {c : Cell} (hc : c ∈ cellsWritten i) :
    SameCell s' t' c := by
  obtain ⟨w, hw, hs', ht'⟩ := exec_writeBack_of_reads hr
  cases hs'.symm.trans hs
  cases ht'.symm.trans ht
  have := w.apply_same (need (cellsRead i) s) (need (cellsRead i) t) (hw ▸ hc)
  cases c <;> exact this

/-! ## The marks a transaction sets, and the flag marks (10_state.md R42) -/

/-- The cells a transaction writes (45_dispatcher.md R242, 40_register_ports.md R112, R116). `perform_mark` ties it to
`perform`. -/
def transactionWrites : Transaction → List Cell
  | .execute iw => match decode iw with
    | .ok i    => cellsWritten i
    | .error _ => []
  | .writeRegister c _ => ((decodeReg c).map Cell.reg).toList
  | .setPair c _ => match decodePair c with
    | some p => pairCells p
    | none   => []
  | .readRegister _ | .getPair _ | .flags => []

/-- A transaction marks the cells it writes and no other. -/
theorem perform_mark {t : Transaction} {s s' : State} (h : perform t s = .next s') (c : Cell) :
    s'.written.get c = (s.written.get c || decide (c ∈ transactionWrites t)) := by
  cases t with
  | execute iw =>
    obtain ⟨e, hd, he⟩ | ⟨i, hd, he⟩ := executePort_cases iw s <;> rw [perform, he] at h
    · cases h
      simp [transactionWrites, hd]
    · simp [transactionWrites, hd, exec_mark h]
  | readRegister k =>
    cases h
    obtain ⟨-, e⟩ | ⟨_, -, e⟩ := readRegisterPort_cases k s <;> simp [e, transactionWrites]
  | writeRegister k v =>
    cases h
    obtain ⟨hd, e⟩ | ⟨r, hd, e⟩ := writeRegisterPort_cases k v s
    · simp [e, transactionWrites, hd]
    · rw [e, respond_written, writeReg_mark]
      simp [transactionWrites, hd]
  | getPair k =>
    cases h
    obtain ⟨-, e⟩ | ⟨_, -, e⟩ := getPairPort_cases k s <;> simp [e, transactionWrites]
  | setPair k v =>
    cases h
    obtain ⟨hd, e⟩ | ⟨p, hd, e⟩ := setPairPort_cases k v s
    · simp [e, transactionWrites, hd]
    · simp [e, transactionWrites, hd, writePair_mark]
  | flags =>
    cases h
    simp [flagsPort, transactionWrites]

/-- Among these cells Z, N and HC are all or none, and CY only with them: a row of the table of 10_state.md R42. -/
def FlagsTogether (cs : List Cell) : Prop :=
  (Cell.flag .z ∈ cs ↔ Cell.flag .n ∈ cs) ∧ (Cell.flag .n ∈ cs ↔ Cell.flag .hc ∈ cs) ∧
    (Cell.flag .cy ∈ cs → Cell.flag .z ∈ cs)

theorem flagsTogether_nil : FlagsTogether [] := by simp [FlagsTogether]

theorem flagsTogether_cellsWritten (i : Instr) : FlagsTogether (cellsWritten i) := by
  cases i <;> simp [FlagsTogether, cellsWritten, flagsWritten]

theorem flagsTogether_pairCells (p : Pair) : FlagsTogether (pairCells p) := by
  cases p <;> simp [FlagsTogether, pairCells]

/-- Every transaction that writes a flag writes Z, N and HC. -/
theorem flagsTogether_transactionWrites (t : Transaction) : FlagsTogether (transactionWrites t) := by
  cases t with
  | execute iw =>
    simp only [transactionWrites]
    cases decode iw with
    | error _ => exact flagsTogether_nil
    | ok i => exact flagsTogether_cellsWritten i
  | writeRegister c v =>
    simp only [transactionWrites]
    cases decodeReg c with
    | none => exact flagsTogether_nil
    | some r => simp [FlagsTogether]
  | setPair c v =>
    simp only [transactionWrites]
    cases decodePair c with
    | none => exact flagsTogether_nil
    | some p => exact flagsTogether_pairCells p
  | readRegister _ | getPair _ | flags => exact flagsTogether_nil

theorem perform_flagMarksTogether {t : Transaction} {s s' : State} (hs : s.FlagMarksTogether)
    (h : perform t s = .next s') : s'.FlagMarksTogether := by
  obtain ⟨hzn, hnhc, hcyz⟩ := hs
  obtain ⟨wzn, wnhc, wcyz⟩ := flagsTogether_transactionWrites t
  refine ⟨?_, ?_, ?_⟩
  · rw [perform_mark h, perform_mark h, hzn, decide_eq_decide.2 wzn]
  · rw [perform_mark h, perform_mark h, hnhc, decide_eq_decide.2 wnhc]
  · simp only [perform_mark h, Bool.or_eq_true, decide_eq_true_eq]
    exact Or.imp hcyz wcyz

/-- Settles O54: a step is idle or one transaction, and a transaction marks flags together. -/
theorem stepKeepsTheFlagMarksTogether : Obligations.StepKeepsTheFlagMarksTogether := by
  intro s s' hs h
  obtain ⟨-, rfl⟩ | ⟨t, rest, -, hp⟩ := step_cases h
  · exact hs
  · exact perform_flagMarksTogether (s := { s with pending := rest }) hs hp

/-! ## Who reads flags (10_state.md R43) -/

theorem flag_mem_cellsWritten {i : Instr} {g : FlagName} : .flag g ∈ cellsWritten i ↔ g ∈ flagsWritten i := by
  simp [cellsWritten]

/-- Changing flags an instruction does not read changes no register and no flag it writes. -/
theorem exec_of_flagsRead_agree {i : Instr} {s t u : State} {fl : Flags}
    (hr : ∀ g, .flag g ∈ cellsRead i → fl.get g = s.f.get g)
    (ht : exec i s = .next t) (hu : exec i { s with f := fl } = .next u) :
    t.regs = u.regs ∧ ∀ g ∈ flagsWritten i, t.f.get g = u.f.get g := by
  have hsame : ∀ c ∈ cellsRead i, SameCell s { s with f := fl } c
    | .reg _, _ => rfl
    | .flag g, hg => (hr g hg).symm
  refine ⟨PerReg.eq_of_get fun q => ?_, fun g hg => exec_same_of_reads hsame ht hu (flag_mem_cellsWritten.2 hg)⟩
  by_cases hq : .reg q ∈ cellsWritten i
  · exact exec_same_of_reads hsame ht hu hq
  · exact ((exec_frame ht hq).symm : t.regs.get q = s.regs.get q).trans (exec_frame hu hq)

theorem flag_notMem_cellsRead {i : Instr} (hi : ∀ r, i ≠ .adc r ∧ i ≠ .sbc r) (g : FlagName) :
    .flag g ∉ cellsRead i := by
  cases i with
  | adc r => exact absurd rfl (hi r).1
  | sbc r => exact absurd rfl (hi r).2
  | _ r => simp [cellsRead]

/-- ADC and SBC depend on no flag but CY. -/
theorem exec_of_carry_agree {i : Instr} {r : Reg} (hi : i = .adc r ∨ i = .sbc r) {s t u : State} {fl : Flags}
    (hcy : fl.cy = s.f.cy) (ht : exec i s = .next t) (hu : exec i { s with f := fl } = .next u) :
    t.regs = u.regs ∧ t.f = u.f := by
  have hread (g : FlagName) (hg : .flag g ∈ cellsRead i) : fl.get g = s.f.get g := by
    obtain rfl : g = .cy := by rcases hi with rfl | rfl <;> simpa [cellsRead] using hg
    exact hcy
  have hall (g : FlagName) : g ∈ flagsWritten i := by
    rcases hi with rfl | rfl <;> cases g <;> simp [flagsWritten]
  obtain ⟨hregs, hf⟩ := exec_of_flagsRead_agree hread ht hu
  exact ⟨hregs, PerFlag.eq_of_get fun g => hf g (hall g)⟩

/-- The carry-in adds one. -/
theorem addResult_one (a v : Byte) : addResult a v 1 = addResult a v 0 + 1#8 := by
  simp [addResult, BitVec.ofNat_add]

/-- The carry-in subtracts one. -/
theorem subResult_one (a v : Byte) : subResult a v 1 = subResult a v 0 - 1#8 := by
  simp [subResult, sub_eq_add_neg, BitVec.ofInt_add, BitVec.ofInt_neg]

theorem eq_pairCode_of_decodePair {c : PairCode} {p : Pair} (h : decodePair c = some p) : c = pairCode p := by
  revert c
  cases p <;> decide

theorem readPair_of_ne_af {p : Pair} (hp : p ≠ .af) (s : State) (fl : Flags) :
    readPair { s with f := fl } p = readPair s p := by
  cases p with
  | af => exact absurd rfl hp
  | bc | de | hl => rfl

/-- No port but `execute`, `flags` and `get_pair(AF)` reads a flag. -/
theorem perform_ignores_flags {t : Transaction} (hx : ∀ iw, t ≠ .execute iw) (hf : t ≠ .flags)
    (haf : t ≠ .getPair (pairCode .af)) (s : State) (fl : Flags) :
    ∃ u u', perform t s = .next u ∧ perform t { s with f := fl } = .next u' ∧
      u.regs = u'.regs ∧ u.response = u'.response := by
  cases t with
  | execute iw => exact absurd rfl (hx iw)
  | flags => exact absurd rfl hf
  | readRegister c =>
    refine ⟨_, _, rfl, rfl, ?_⟩
    cases h : decodeReg c <;> simp [readRegisterPort, h, readReg]
  | writeRegister c v =>
    refine ⟨_, _, rfl, rfl, ?_⟩
    cases h : decodeReg c <;> simp [writeRegisterPort, h]
  | getPair c =>
    refine ⟨_, _, rfl, rfl, ?_⟩
    cases h : decodePair c with
    | none => simp [getPairPort, h]
    | some p =>
      have hp : p ≠ .af := fun e => haf (by rw [eq_pairCode_of_decodePair h, e])
      simp [getPairPort, h, readPair_of_ne_af hp]
  | setPair c v =>
    refine ⟨_, _, rfl, rfl, ?_⟩
    cases h : decodePair c with
    | none => simp [setPairPort, h]
    | some p => cases p <;> simp [setPairPort, h, writePair]

/-- Settles O24: the flags an instruction depends on are those among the cells it reads. -/
theorem onlyAdcSbcAndTheAFPortsReadFlags : Obligations.OnlyAdcSbcAndTheAFPortsReadFlags := by
  refine ⟨fun i s fl hi => ?_, fun r s fl hcy => ?_, fun r s => ?_, fun s => ?_,
    fun t s fl hx hf haf => perform_ignores_flags hx hf haf s fl⟩
  · obtain ⟨t, ht⟩ := exec_completes i s
    obtain ⟨u, hu⟩ := exec_completes i { s with f := fl }
    obtain ⟨hregs, hf⟩ := exec_of_flagsRead_agree (fun g hg => absurd hg (flag_notMem_cellsRead hi g)) ht hu
    exact ⟨t, u, ht, hu, hregs, hf, fun g hg => (exec_frame hu (mt flag_mem_cellsWritten.1 hg)).symm⟩
  · obtain ⟨hregs, hf⟩ := exec_of_carry_agree (.inl rfl) hcy (rfl : exec (.adc r) s = _) rfl
    obtain ⟨hregs', hf'⟩ := exec_of_carry_agree (.inr rfl) hcy (rfl : exec (.sbc r) s = _) rfl
    exact ⟨_, _, _, _, rfl, rfl, hregs, hf, rfl, rfl, hregs', hf'⟩
  · exact ⟨_, _, _, _, rfl, rfl, addResult_one .., rfl, rfl, subResult_one ..⟩
  · exact ⟨_, _, rfl, rfl, rfl, rfl⟩

/-! ## A pair written and read back (10_state.md R38) -/

theorem b2n_getLsbD (b : Bool) (k : Nat) : (b2n b).getLsbD k = (decide (k = 0) && b) := by
  cases b <;> simp [b2n]

/-- Through the codec and back, bits 3:0 are lost (41_flag_codec.md R142). -/
theorem encodeFlags_decodeFlags (b : Byte) : encodeFlags (decodeFlags b) = b &&& 0xF0#8 := by
  ext k hk
  rw [← BitVec.getLsbD_eq_getElem]
  simp only [encodeFlags, decodeFlags, BitVec.getLsbD_or, BitVec.getLsbD_shiftLeft, b2n_getLsbD]
  interval_cases k <;> simp

theorem joinBytes_highByte_lowByte_and (v : Word16) : joinBytes (highByte v) (lowByte v &&& 0xF0#8) = v &&& 0xFFF0#16 :=
  calc joinBytes (highByte v) (lowByte v &&& 0xF0#8)
      = joinBytes (highByte v &&& BitVec.allOnes 8) (lowByte v &&& 0xF0#8) := by rw [BitVec.and_allOnes]
    _ = joinBytes (highByte v) (lowByte v) &&& joinBytes (BitVec.allOnes 8) 0xF0#8 := BitVec.and_append.symm
    _ = v &&& 0xFFF0#16 := by rw [joinBytes_halves]; rfl

theorem decodeFlags_lowByte (v : Word16) :
    decodeFlags (lowByte v) = ⟨v.getLsbD 7, v.getLsbD 6, v.getLsbD 5, v.getLsbD 4⟩ := by
  simp [decodeFlags, lowByte]

/-- What a pair holds after `v` is written to it: AF has no storage for bits 3:0 (10_state.md R39). `readPair_writePair` ties it
to the model. -/
def storedPair (p : Pair) (v : Word16) : Word16 :=
  match p with
  | .af => v &&& 0xFFF0#16
  | .bc | .de | .hl => v

theorem readPair_writePair (p : Pair) (v : Word16) (s : State) : readPair (writePair p v s) p = storedPair p v := by
  cases p with
  | af => simp [readPair, writePair, readReg, storedPair, encodeFlags_decodeFlags, joinBytes_highByte_lowByte_and]
  | bc | de | hl => simp [readPair, writePair, readReg, storedPair]

theorem writePair_regs_frame (p : Pair) (v : Word16) (s : State) {q : Reg} (hq : .reg q ∉ pairCells p) :
    (writePair p v s).regs.get q = s.regs.get q := by
  cases p <;> simp_all [writePair, pairCells, PerReg.get_set]

theorem writePair_f_of_ne_af {p : Pair} (hp : p ≠ .af) (v : Word16) (s : State) : (writePair p v s).f = s.f := by
  cases p with
  | af => exact absurd rfl hp
  | bc | de | hl => rfl

theorem perform_setPair (p : Pair) (v : Word16) (s : State) :
    perform (.setPair (pairCode p) v) s = .next (respond ⟨.ok, none⟩ (writePair p v s)) := by
  simp [perform, setPairPort]

theorem perform_getPair (p : Pair) (s : State) :
    perform (.getPair (pairCode p)) s = .next (respond ⟨.ok, some (.pair (readPair s p))⟩ (need (pairCells p) s)) := by
  simp [perform, getPairPort]

@[simp] theorem readPair_respond (r : Response) (s : State) (p : Pair) : readPair (respond r s) p = readPair s p := by
  cases p <;> rfl

/-- get_pair right after a write of the pair returns what the write stored, and records nothing. -/
theorem perform_getPair_writePair (p : Pair) (v : Word16) (r : Response) (s : State) :
    perform (.getPair (pairCode p)) (respond r (writePair p v s)) =
      .next (respond ⟨.ok, some (.pair (storedPair p v))⟩ (writePair p v s)) := by
  have hneed : need (pairCells p) (respond r (writePair p v s)) = respond r (writePair p v s) :=
    need_of_written fun c hc => by simp [writePair_mark, hc]
  rw [perform_getPair, readPair_respond, readPair_writePair, hneed]
  rfl

theorem runsTo_setPair_getPair {s : State} {p : Pair} {v : Word16} {rest : List HostCall}
    (h : s.pending = .issue (.setPair (pairCode p) v) :: .issue (.getPair (pairCode p)) :: rest) :
    RunsTo 2 s (respond ⟨.ok, some (.pair (storedPair p v))⟩ (writePair p v { s with pending := rest })) := by
  have hset := (step_issue h).trans (perform_setPair ..)
  refine (runsTo_succ ..).2 ⟨_, hset, (runsTo_succ ..).2 ⟨_, ?_, (runsTo_zero ..).2 rfl⟩⟩
  rw [← perform_getPair_writePair p v ⟨.ok, none⟩, step_issue (writePair_pending ..)]
  cases p <;> rfl

/-- Settles O38: the run of two steps ends in the pair write, and the rest is what a pair write does. -/
theorem setPairThenGetPairReturnsTheValue : Obligations.SetPairThenGetPairReturnsTheValue := by
  intro s p v rest h
  refine ⟨_, runsTo_setPair_getPair h, by simp, by simp, ?_, fun q hq => writePair_regs_frame p v _ hq,
    fun hp => writePair_f_of_ne_af hp v _, ?_⟩
  · cases p <;> rfl
  · cases p with
    | af => simp [writePair, highByte_toNat, decodeFlags_lowByte]
    | bc | de | hl => simp [writePair, highByte_toNat, lowByte_toNat]

end Sys2Proof.Machine

/-! # Family 40_register_ports.md

A read of marked cells only adds its response (`step_read_of_written`), a pair write is `writePair` (`step_setPair`), and an
invalid code only adds an error response. -/

namespace Sys2Proof.Machine

/-! ## Reads of written cells -/

/-- Where every cell a read needs is marked, the read changes nothing but the response. -/
theorem step_read_of_written {s : State} {t : Transaction} {rest : List HostCall} {cs : List Cell} {r : Response}
    (h : s.pending = .issue t :: rest)
    (hp : perform t { s with pending := rest } = .next (respond r (need cs { s with pending := rest })))
    (hw : ∀ c ∈ cs, s.written.get c = true) :
    step s = .next { s with pending := rest, response := some r } := by
  rw [step_issue h, hp, need_of_written (s := { s with pending := rest }) hw]
  rfl

theorem perform_readRegister (r : Reg) (s : State) :
    perform (.readRegister (regCode r)) s =
      .next (respond ⟨.ok, some (.byte (s.regs.get r))⟩ (need [.reg r] s)) := by
  simp [perform, readRegisterPort, readReg]

/-- Settles O33: code 7 names no register, and a read of a written one only adds the response. -/
theorem readRegisterReturnsTheRegister : Obligations.ReadRegisterReturnsTheRegister := by
  intro s c rest h
  refine ⟨?_, ?_⟩
  · rintro rfl
    exact step_issue h
  · rintro r rfl hw
    exact step_read_of_written h (perform_readRegister r _) (by simpa using hw)

/-- Settles O39: `flags` needs the four flag marks and returns the flags as they are. -/
theorem flagsPortReturnsTheSnapshot : Obligations.FlagsPortReturnsTheSnapshot := by
  intro s rest h hw
  have hcells : ∀ c ∈ transactionReads .flags, s.written.get c = true := by
    simpa [transactionReads] using And.intro (hw .z) ⟨hw .n, hw .hc, hw .cy⟩
  exact step_read_of_written h rfl hcells

/-! ## Pairs as numbers (10_state.md R37) -/

theorem encodeFlags_toNat (f : Flags) :
    (encodeFlags f).toNat = f.z.toNat * 128 + f.n.toNat * 64 + f.hc.toNat * 32 + f.cy.toNat * 16 := by
  obtain ⟨z, n, hc, cy⟩ := f
  revert z n hc cy
  decide

/-- Settles O35: a read of written cells returns the pair, whose number is that of its halves. -/
theorem getPairReturnsTheView : Obligations.GetPairReturnsTheView := by
  intro s p rest h hw
  refine ⟨readPair s p, step_read_of_written h ?_ hw, ?_⟩
  · rw [perform_getPair]
    cases p <;> rfl
  · cases p with
    | af => rw [readPair, joinBytes_toNat, encodeFlags_toNat]; rfl
    | bc | de | hl => exact joinBytes_toNat ..

/-! ## Pair writes and invalid pair codes -/

theorem decodePair_eq_none_of_four_le {c : PairCode} (h : 4 ≤ c.toNat) : decodePair c = none := by
  have hbad : pairCodeOk c = false := decide_eq_false (by omega)
  simpa [hbad] using decodePair_isSome c

theorem step_getPair_invalid {s : State} {c : PairCode} {rest : List HostCall} (hc : 4 ≤ c.toNat)
    (h : s.pending = .issue (.getPair c) :: rest) :
    step s = .next { s with pending := rest, response := some ⟨.invalidRegisterPair, none⟩ } := by
  rw [step_issue h, perform, getPairPort, decodePair_eq_none_of_four_le hc]
  rfl

theorem step_setPair_invalid {s : State} {c : PairCode} {v : Word16} {rest : List HostCall} (hc : 4 ≤ c.toNat)
    (h : s.pending = .issue (.setPair c v) :: rest) :
    step s = .next { s with pending := rest, response := some ⟨.invalidRegisterPair, none⟩ } := by
  rw [step_issue h, perform, setPairPort, decodePair_eq_none_of_four_le hc]
  rfl

/-- Settles O37: no pair code above 3 names a pair. -/
theorem invalidPairCodesFailFast : Obligations.InvalidPairCodesFailFast := by
  intro s c v rest hc h
  obtain h | h := h
  · exact step_getPair_invalid hc h
  · exact step_setPair_invalid hc h

theorem step_setPair {s : State} {v : Word16} {rest : List HostCall} (p : Pair)
    (h : s.pending = .issue (.setPair (pairCode p) v) :: rest) :
    step s = .next { writePair p v s with pending := rest, response := some ⟨.ok, none⟩ } := by
  rw [step_issue h, perform_setPair]
  cases p <;> rfl

theorem ofNat_toNat_div_eq_highByte (v : Word16) : BitVec.ofNat 8 (v.toNat / 256) = highByte v := by
  rw [← highByte_toNat, BitVec.ofNat_toNat, BitVec.setWidth_eq]

theorem ofNat_toNat_mod_eq_lowByte (v : Word16) : BitVec.ofNat 8 (v.toNat % 256) = lowByte v := by
  rw [← lowByte_toNat, BitVec.ofNat_toNat, BitVec.setWidth_eq]

/-- Settles O36: with its bytes named as the model's halves, each clause is `writePair` of the pair the code names. -/
theorem setPairWritesTheTwoHalves : Obligations.SetPairWritesTheTwoHalves := by
  intro s c v rest h
  rw [ofNat_toNat_div_eq_highByte, ofNat_toNat_mod_eq_lowByte]
  refine ⟨?_, ?_, ?_, ?_, fun hc => step_setPair_invalid hc h⟩
  · rintro rfl
    exact step_setPair .af h
  · rintro rfl
    exact step_setPair .bc h
  · rintro rfl
    exact step_setPair .de h
  · rintro rfl
    exact step_setPair .hl h

/-! ## Statuses (40_register_ports.md R121) -/

theorem exec_response {i : Instr} {s t : State} (h : exec i s = .next t) : t.response = some ⟨.ok, none⟩ := by
  obtain ⟨w, -, hs⟩ := exec_writeBack i s
  cases hs.symm.trans h
  rfl

/-- Settles O41: each port ends in one of the responses its case lemma names. -/
theorem eachPortReturnsItsOwnStatuses : Obligations.EachPortReturnsItsOwnStatuses := by
  intro s t rest h
  rw [step_issue h]
  generalize { s with pending := rest } = s
  cases t with
  | execute iw =>
    obtain ⟨-, -, e⟩ | ⟨i, -, e⟩ := executePort_cases iw s
    · exact ⟨_, _, e, rfl, .inr rfl⟩
    · obtain ⟨u, hu⟩ := exec_completes i s
      exact ⟨u, _, e.trans hu, exec_response hu, .inl rfl⟩
  | readRegister c =>
    obtain ⟨-, e⟩ | ⟨r, -, e⟩ := readRegisterPort_cases c s
    · exact ⟨_, _, congrArg Host.Outcome.next e, rfl, .inr rfl⟩
    · exact ⟨_, _, congrArg Host.Outcome.next e, rfl, .inl ⟨_, rfl⟩⟩
  | writeRegister c v =>
    obtain ⟨-, e⟩ | ⟨r, -, e⟩ := writeRegisterPort_cases c v s
    · exact ⟨_, _, congrArg Host.Outcome.next e, rfl, .inr rfl⟩
    · exact ⟨_, _, congrArg Host.Outcome.next e, rfl, .inl rfl⟩
  | getPair c =>
    obtain ⟨-, e⟩ | ⟨p, -, e⟩ := getPairPort_cases c s
    · exact ⟨_, _, congrArg Host.Outcome.next e, rfl, .inr rfl⟩
    · exact ⟨_, _, congrArg Host.Outcome.next e, rfl, .inl ⟨_, rfl⟩⟩
  | setPair c v =>
    obtain ⟨-, e⟩ | ⟨p, -, e⟩ := setPairPort_cases c v s
    · exact ⟨_, _, congrArg Host.Outcome.next e, rfl, .inr rfl⟩
    · exact ⟨_, _, congrArg Host.Outcome.next e, rfl, .inl rfl⟩
  | flags => exact ⟨_, _, rfl, rfl, _, rfl⟩

end Sys2Proof.Machine

/-! # Family 41_flag_codec.md

encode is known by its bits (`encodeFlags_getLsbD`) and by its number (`encodeFlags_toNat`); the round trips follow from the bits,
the image from the number. -/

namespace Sys2Proof.Machine

/-- A flag shifted to bit `k` is that bit alone. -/
theorem b2n_shiftLeft_getLsbD (b : Bool) {k : Nat} (hk : k < 8) (j : Nat) :
    (b2n b <<< k).getLsbD j = (decide (j = k) && b) := by
  have hj : (j < 8 ∧ ¬ j < k) ∧ j - k = 0 ↔ j = k := by omega
  simp only [BitVec.getLsbD_shiftLeft, b2n_getLsbD, ← Bool.and_assoc, ← decide_not, ← Bool.decide_and, hj]

/-- Each bit of an encoded byte: Z, N, HC, CY at 7, 6, 5, 4, and false elsewhere (41_flag_codec.md R140). -/
theorem encodeFlags_getLsbD (f : Flags) (j : Nat) :
    (encodeFlags f).getLsbD j =
      (decide (j = 7) && f.z || decide (j = 6) && f.n || decide (j = 5) && f.hc || decide (j = 4) && f.cy) := by
  simp [encodeFlags, -BitVec.getLsbD_shiftLeft, b2n_shiftLeft_getLsbD]

theorem decodeFlags_encodeFlags (f : Flags) : decodeFlags (encodeFlags f) = f := by
  simp only [decodeFlags, encodeFlags_getLsbD]
  simp

theorem encodeFlags_injective : Function.Injective encodeFlags :=
  Function.LeftInverse.injective decodeFlags_encodeFlags

/-- Clearing bits 3:0 of a multiple of 16 changes nothing. -/
theorem and_F0_of_toNat_mod_sixteen {b : Byte} (h : b.toNat % 16 = 0) : b &&& 0xF0#8 = b := by
  have hlow (k : Nat) (hk : k < 4) : b.getLsbD k = false := by
    have hmod := Nat.testBit_mod_two_pow b.toNat 4 k
    rw [← BitVec.testBit_toNat]
    simpa [h, hk] using hmod.symm
  ext k hk
  rw [← BitVec.getLsbD_eq_getElem, ← BitVec.getLsbD_eq_getElem, BitVec.getLsbD_and]
  by_cases hk4 : k < 4
  · simp [hlow k hk4]
  · interval_cases k <;> simp

/-- The image of encode. -/
theorem exists_encodeFlags_eq_iff (b : Byte) : (∃ f, encodeFlags f = b) ↔ b.toNat % 16 = 0 := by
  constructor
  · rintro ⟨f, rfl⟩
    rw [encodeFlags_toNat]
    omega
  · intro h
    exact ⟨decodeFlags b, (encodeFlags_decodeFlags b).trans (and_F0_of_toNat_mod_sixteen h)⟩

/-- Settles O32: encode has decode as a left inverse, so it is injective, and decode is a right inverse up to bits 3:0. -/
theorem flagCodecRoundTrips : Obligations.FlagCodecRoundTrips :=
  ⟨encodeFlags_decodeFlags, decodeFlags_encodeFlags, fun _ _ h => encodeFlags_injective h, exists_encodeFlags_eq_iff⟩

/-- Settles O31: decode reads bits 7 to 4, so the round trip of `f` gives those of its encoding. -/
theorem flagCodecMapsEachFlagToItsBit : Obligations.FlagCodecMapsEachFlagToItsBit := by
  intro f b
  have hlow (j : Nat) (hj : j < 4) : (encodeFlags f).getLsbD j = false := by
    have hne : j ≠ 7 ∧ j ≠ 6 ∧ j ≠ 5 ∧ j ≠ 4 := by omega
    simp [encodeFlags_getLsbD, hne]
  obtain ⟨hz, hn, hhc, hcy⟩ := PerFlag.mk.inj (decodeFlags_encodeFlags f)
  exact ⟨hz, hn, hhc, hcy, hlow, rfl, encodeFlags_toNat f⟩

end Sys2Proof.Machine

/-! # Family 42_alu_arith.md

Where the cells it reads are marked, an instruction that writes the accumulator ends in its result and flags and leaves the rest
(`exec_accumulator`); the results and flags of addition and subtraction as numbers do the rest. -/

namespace Sys2Proof.Machine

/-! ## The word of an instruction (30_encoding.md R95) -/

theorem decode_encode (i : Instr) : decode (encode i) = .ok i := by
  cases i with
  | add r | add16 r | adc r | sub r | sbc r | and r | or r | xor r | cp r | inc r | dec r => cases r <;> rfl

/-! ## What an accumulator instruction does -/

theorem exec_accumulator {i : Instr} {s : State} {v : Byte} {f : Flags}
    (h : exec i s = .next (returnOk (writeFlags f (writeReg .a v (need (cellsRead i) s)))))
    (hw : ∀ c ∈ cellsRead i, s.written.get c = true) :
    ∃ t, exec i s = .next t ∧ t.regs.a = v ∧ (∀ q, q ≠ .a → t.regs.get q = s.regs.get q) ∧ t.f = f ∧ EndsOk s t := by
  rw [need_of_written hw] at h
  exact ⟨_, h, rfl, fun _ hq => PerReg.get_set_other _ _ hq, rfl, ⟨rfl, rfl, rfl⟩⟩

/-! ## Flags as arithmetic -/

theorem addFlags_eq (a v : Byte) (cin : Nat) :
    addFlags a v cin =
      { z := decide ((a.toNat + v.toNat + cin) % 256 = 0)
        n := false
        hc := decide ((a.toNat &&& 0xF) + (v.toNat &&& 0xF) + cin > 0xF)
        cy := decide (a.toNat + v.toNat + cin > 255) } := by
  rw [addFlags, isZero_eq, addResult_toNat]
  rfl

theorem subFlags_eq (a v : Byte) (cin : Nat) :
    subFlags a v cin =
      { z := decide (((a.toNat : Int) - v.toNat - cin) % 256 = 0)
        n := true
        hc := decide ((a.toNat &&& 0xF) < (v.toNat &&& 0xF) + cin)
        cy := decide (a.toNat < v.toNat + cin) } := by
  simp only [subFlags, isZero_eq, ← subResult_toNat, Int.natCast_eq_zero]
  rfl

/-- b2n of CY, as the rules of ADC and SBC use it (42_alu_arith.md R170, R180). -/
theorem carryIn_eq (s : State) : carryIn s = if s.f.cy then 1 else 0 := cond_eq_ite ..

/-! ## The instructions -/

/-- Settles O10: addition with no carry-in. -/
theorem addAddsToTheAccumulator : Obligations.AddAddsToTheAccumulator := by
  intro r s ha hr a v
  obtain ⟨t, ht, hres, hframe, hf, hok⟩ := exec_accumulator (i := .add r) (s := s) rfl (by simp [cellsRead, ha, hr])
  obtain ⟨hz, hn, hhc, hcy⟩ := PerFlag.mk.inj (hf.trans (addFlags_eq ..))
  exact ⟨t, ht, hres ▸ addResult_toNat .., hframe, hz, hn, hhc, hcy, hok, decode_encode (.add r)⟩

/-- Settles O12: addition with CY as the carry-in. -/
theorem adcAddsWithTheCarry : Obligations.AdcAddsWithTheCarry := by
  intro r s ha hr hc a v cin
  obtain ⟨t, ht, hres, hframe, hf, hok⟩ :=
    exec_accumulator (i := .adc r) (s := s) rfl (by simp [cellsRead, ha, hr, hc])
  rw [carryIn_eq] at hres hf
  obtain ⟨hz, hn, hhc, hcy⟩ := PerFlag.mk.inj (hf.trans (addFlags_eq ..))
  exact ⟨t, ht, hres ▸ addResult_toNat .., hframe, hz, hn, hhc, hcy, hok, decode_encode (.adc r)⟩

/-- Settles O13: subtraction with no carry-in. -/
theorem subSubtractsFromTheAccumulator : Obligations.SubSubtractsFromTheAccumulator := by
  intro r s ha hr a v
  have hdiff : (a : Int) - v - (0 : Nat) = a - v := sub_zero _
  obtain ⟨t, ht, hres, hframe, hf, hok⟩ := exec_accumulator (i := .sub r) (s := s) rfl (by simp [cellsRead, ha, hr])
  obtain ⟨hz, hn, hhc, hcy⟩ := PerFlag.mk.inj (hf.trans (subFlags_eq ..))
  exact ⟨t, ht, hdiff ▸ hres ▸ subResult_toNat .., hframe, hdiff ▸ hz, hn, hhc, hcy, hok, decode_encode (.sub r)⟩

/-- Settles O14: subtraction with CY as the carry-in. -/
theorem sbcSubtractsWithTheCarry : Obligations.SbcSubtractsWithTheCarry := by
  intro r s ha hr hc a v cin
  obtain ⟨t, ht, hres, hframe, hf, hok⟩ :=
    exec_accumulator (i := .sbc r) (s := s) rfl (by simp [cellsRead, ha, hr, hc])
  rw [carryIn_eq] at hres hf
  obtain ⟨hz, hn, hhc, hcy⟩ := PerFlag.mk.inj (hf.trans (subFlags_eq ..))
  exact ⟨t, ht, hres ▸ subResult_toNat .., hframe, hz, hn, hhc, hcy, hok, decode_encode (.sbc r)⟩

end Sys2Proof.Machine

/-! # Family 43_alu_logic.md

AND, OR and XOR are one form of write (`logicWrite`) that differs in the result and in the fixed half-carry: what the form does is
said once (`exec_logic`). -/

namespace Sys2Proof.Machine

/-! ## The shared form of AND, OR and XOR -/

/-- The write of a logic operation: the result to A, and its flags. `exec_and`, `exec_or` and `exec_xor` tie it to `exec`. -/
def logicWrite (res : Byte) (hc : Bool) : WriteBack := .accumulator res (logicFlags res hc)

theorem exec_and (r : Reg) (s : State) :
    exec (.and r) s =
      .next (returnOk ((logicWrite (s.regs.a &&& s.regs.get r) true).apply (need (cellsRead (.and r)) s))) := rfl

theorem exec_or (r : Reg) (s : State) :
    exec (.or r) s =
      .next (returnOk ((logicWrite (s.regs.a ||| s.regs.get r) false).apply (need (cellsRead (.or r)) s))) := rfl

theorem exec_xor (r : Reg) (s : State) :
    exec (.xor r) s =
      .next (returnOk ((logicWrite (s.regs.a ^^^ s.regs.get r) false).apply (need (cellsRead (.xor r)) s))) := rfl

theorem logicFlags_eq (res : Byte) (hc : Bool) :
    logicFlags res hc = { z := decide (res.toNat = 0), n := false, hc := hc, cy := false } := by
  rw [logicFlags, isZero_eq]

/-- Where the cells it reads are marked, a logic operation whose result has the number `n` ends with `n` in A, its fixed flags and
the rest as it was. -/
theorem exec_logic {i : Instr} {s : State} {res : Byte} {hc : Bool} {n : Nat}
    (h : exec i s = .next (returnOk ((logicWrite res hc).apply (need (cellsRead i) s)))) (hn : res.toNat = n)
    (hw : ∀ c ∈ cellsRead i, s.written.get c = true) :
    ∃ t, exec i s = .next t ∧ t.regs.a.toNat = n ∧ (∀ q, q ≠ .a → t.regs.get q = s.regs.get q) ∧
      t.f.z = decide (n = 0) ∧ t.f.n = false ∧ t.f.hc = hc ∧ t.f.cy = false ∧
      EndsOk s t ∧ decode (encode i) = .ok i := by
  subst hn
  obtain ⟨t, ht, hres, hframe, hf, hok⟩ := exec_accumulator h hw
  obtain ⟨hz, hsub, hhc, hcy⟩ := PerFlag.mk.inj (hf.trans (logicFlags_eq ..))
  exact ⟨t, ht, congrArg BitVec.toNat hres, hframe, hz, hsub, hhc, hcy, hok, decode_encode i⟩

/-! ## The instructions -/

/-- Settles O15: the logic form, with the number of a bitwise and. -/
theorem andMasksTheAccumulator : Obligations.AndMasksTheAccumulator := by
  intro r s ha hr res
  exact exec_logic (exec_and r s) (BitVec.toNat_and ..) (by simp [cellsRead, ha, hr])

/-- Settles O16: the logic form, with the number of a bitwise or. -/
theorem orJoinsIntoTheAccumulator : Obligations.OrJoinsIntoTheAccumulator := by
  intro r s ha hr res
  exact exec_logic (exec_or r s) (BitVec.toNat_or ..) (by simp [cellsRead, ha, hr])

/-- Settles O17: the logic form, with the number of a bitwise exclusive or. -/
theorem xorTogglesTheAccumulator : Obligations.XorTogglesTheAccumulator := by
  intro r s ha hr res
  exact exec_logic (exec_xor r s) (BitVec.toNat_xor ..) (by simp [cellsRead, ha, hr])

/-- Settles O25: the logic form fixes both flags, whatever the marks. -/
theorem andSetsHalfCarryOrAndXorClearIt : Obligations.AndSetsHalfCarryOrAndXorClearIt := by
  intro r s
  exact ⟨_, _, _, exec_and r s, exec_or r s, exec_xor r s, rfl, rfl, rfl, rfl, rfl, rfl⟩

end Sys2Proof.Machine

/-! # Family 44_alu_cp_inc_dec.md

CP is the flag write of SUB alone; INC and DEC are one write to the selected register and Z, N and HC (`exec_selectedRegister`). CY
is not among the cells they write, so they keep it, and so does any run of them. -/

namespace Sys2Proof.Machine

/-! ## CP -/

theorem exec_cp (r : Reg) (s : State) :
    exec (.cp r) s = .next (returnOk (writeFlags (subFlags s.regs.a (s.regs.get r) 0) (need (cellsRead (.cp r)) s))) := rfl

/-- Settles O18: both CP and SUB write the flags of a subtraction with no carry-in. -/
theorem cpOnlySetsTheFlagsOfSub : Obligations.CpOnlySetsTheFlagsOfSub := by
  intro r s ha hr a v
  have hcp := exec_cp r s
  rw [need_of_written (by simp [cellsRead, ha, hr])] at hcp
  have hdiff : (a : Int) - v - (0 : Nat) = a - v := sub_zero _
  obtain ⟨hz, hn, hhc, hcy⟩ := PerFlag.mk.inj (subFlags_eq s.regs.a (s.regs.get r) 0)
  exact ⟨_, _, hcp, rfl, rfl, rfl, hdiff ▸ hz, hn, hhc, hcy, ⟨rfl, rfl, rfl⟩, decode_encode (.cp r)⟩

/-! ## INC and DEC -/

/-- Where the cells it reads are marked, an instruction that writes the selected register and Z, N and HC ends with them, and with
CY, CY's mark and the other registers as they were. -/
theorem exec_selectedRegister {i : Instr} {r : Reg} {s : State} {v : Byte} {z n hc : Bool}
    (h : exec i s = .next (returnOk (writeFlagsButCarry z n hc (writeReg r v (need (cellsRead i) s)))))
    (hw : ∀ c ∈ cellsRead i, s.written.get c = true) :
    ∃ t, exec i s = .next t ∧ t.regs.get r = v ∧ (∀ q, q ≠ r → t.regs.get q = s.regs.get q) ∧
      t.f = ⟨z, n, hc, s.f.cy⟩ ∧ t.written.get (.flag .cy) = s.written.get (.flag .cy) ∧ EndsOk s t := by
  rw [need_of_written hw] at h
  exact ⟨_, h, PerReg.get_set_same .., fun _ hq => PerReg.get_set_other _ _ hq, rfl, rfl, ⟨rfl, rfl, rfl⟩⟩

theorem isZero_incResult (x : Byte) : isZero (incResult x) = decide ((x.toNat + 1) % 256 = 0) := by
  rw [isZero_eq, incResult_toNat]

theorem isZero_decResult (x : Byte) : isZero (decResult x) = decide (((x.toNat : Int) - 1) % 256 = 0) := by
  simp only [isZero_eq, ← decResult_toNat, Int.natCast_eq_zero]

/-- Settles O19: one write, of the increment. -/
theorem incIncrementsTheSelectedRegister : Obligations.IncIncrementsTheSelectedRegister := by
  intro r s hr x
  obtain ⟨t, ht, hres, hframe, hf, hmark, hok⟩ :=
    exec_selectedRegister (i := .inc r) (s := s) rfl (by simpa [cellsRead] using hr)
  obtain ⟨hz, hn, hhc, hcy⟩ := PerFlag.mk.inj hf
  exact ⟨t, ht, hres ▸ incResult_toNat _, hframe, hz.trans (isZero_incResult _), hn, hhc, hcy, hmark, hok,
    decode_encode (.inc r)⟩

/-- Settles O20: one write, of the decrement. -/
theorem decDecrementsTheSelectedRegister : Obligations.DecDecrementsTheSelectedRegister := by
  intro r s hr x
  obtain ⟨t, ht, hres, hframe, hf, -, hok⟩ :=
    exec_selectedRegister (i := .dec r) (s := s) rfl (by simpa [cellsRead] using hr)
  obtain ⟨hz, hn, hhc, hcy⟩ := PerFlag.mk.inj hf
  exact ⟨t, ht, hres ▸ decResult_toNat _, hframe, hz.trans (isZero_decResult _), hn, hhc, hcy, hok,
    decode_encode (.dec r)⟩

/-! ## Who keeps the carry (44_alu_cp_inc_dec.md R235) -/

/-- INC and DEC keep CY, as a cell they do not write. -/
theorem exec_incDec_carry {i : Instr} (hi : ∃ r, i = .inc r ∨ i = .dec r) {s t : State} (h : exec i s = .next t) :
    t.f.cy = s.f.cy := by
  have hcy : .flag .cy ∉ cellsWritten i := by
    obtain ⟨r, rfl | rfl⟩ := hi <;> simp [cellsWritten, regsWritten, flagsWritten]
  exact (exec_frame h hcy).symm

theorem mem_flagsWritten {i : Instr} (hi : ∀ r, i ≠ .inc r ∧ i ≠ .dec r) (g : FlagName) : g ∈ flagsWritten i := by
  cases i with
  | inc r => exact absurd rfl (hi r).1
  | dec r => exact absurd rfl (hi r).2
  | _ r => cases g <;> simp [flagsWritten]

/-- The only flag an instruction can read is CY. -/
theorem eq_cy_of_flag_mem_cellsRead {i : Instr} {g : FlagName} (h : .flag g ∈ cellsRead i) : g = .cy := by
  cases i with
  | adc r | sbc r => simpa [cellsRead] using h
  | _ r => simp [cellsRead] at h

/-- Settles O26: CY is not among the cells INC and DEC write; every other instruction writes all four flags, and their values
depend on no flag it does not read. -/
theorem incAndDecAloneKeepTheCarry : Obligations.IncAndDecAloneKeepTheCarry := by
  refine ⟨fun r s => ?_, fun i s fl hi hread => ?_⟩
  · exact ⟨_, _, rfl, rfl, exec_incDec_carry ⟨r, .inl rfl⟩ rfl, exec_incDec_carry ⟨r, .inr rfl⟩ rfl⟩
  · have hagree (g : FlagName) (hg : .flag g ∈ cellsRead i) : fl.get g = s.f.get g := by
      obtain hcy | hno := hread
      · obtain rfl := eq_cy_of_flag_mem_cellsRead hg
        exact hcy
      · exact absurd hg (flag_notMem_cellsRead hno g)
    obtain ⟨t, ht⟩ := exec_completes i s
    obtain ⟨u, hu⟩ := exec_completes i { s with f := fl }
    obtain ⟨-, hf⟩ := exec_of_flagsRead_agree hagree ht hu
    exact ⟨t, u, ht, hu, PerFlag.eq_of_get fun g => hf g (mem_flagsWritten hi g)⟩

/-! ## A run of INC and DEC (70_reset_and_hazards.md R353) -/

/-- The step at a call that executes the word of an instruction is the instruction's meaning, with that call taken. -/
theorem step_execute_encode {i : Instr} {s : State} {rest : List HostCall}
    (h : s.pending = .issue (.execute (encode i)) :: rest) : step s = exec i { s with pending := rest } := by
  rw [step_issue h, perform, executePort, decode_encode]

/-- Settles O27, by induction on the list: each instruction completes, keeps CY and leaves the calls after it. -/
theorem carryPassesThroughIncAndDec : Obligations.CarryPassesThroughIncAndDec := by
  intro l
  induction l with
  | nil => exact fun s rest _ hp => ⟨s, (runsTo_zero s s).2 rfl, rfl, hp⟩
  | cons i l ih =>
    intro s rest hl hp
    obtain ⟨hi, hl⟩ := List.forall_mem_cons.1 hl
    obtain ⟨t, ht⟩ := exec_completes i { s with pending := l.map (fun i => .issue (.execute (encode i))) ++ rest }
    obtain ⟨s', hrun, hcy, hrest⟩ := ih t rest hl (exec_pending ht)
    have hkeep := exec_incDec_carry hi ht
    exact ⟨s', (runsTo_succ ..).2 ⟨t, (step_execute_encode hp).trans ht, hrun⟩, hcy.trans hkeep, hrest⟩

end Sys2Proof.Machine

/-! # Family 45_dispatcher.md

A step at an execute call is the instruction's meaning (`step_execute_ok`) or the error return (`step_execute_error`), as the
word decodes; it decodes when its three fields are legal (`exists_decode_eq_ok_iff`). -/

namespace Sys2Proof.Machine

/-! ## Which words decode (30_encoding.md R86) -/

theorem kindField_toNat (iw : Byte) : (kindField iw).toNat = iw.toNat / 16 := by
  rw [kindField, BitVec.extractLsb'_toNat, Nat.shiftRight_eq_div_pow]
  exact Nat.mod_eq_of_lt (by omega)

theorem selField_toNat (iw : Byte) : (selField iw).toNat = iw.toNat % 8 := by
  rw [selField, BitVec.extractLsb'_toNat, Nat.shiftRight_zero]

/-- The kind table has exactly the codes the well-formedness check of words accepts. -/
theorem decodeKind_isSome (k : KindCode) : (decodeKind k).isSome = decide (k.toNat ≤ 0xA) := by revert k; decide

/-- The decoder's three tests are those of the well-formedness check. -/
theorem exists_decode_eq_ok_iff (iw : Byte) : (∃ i, decode iw = .ok i) ↔ (fieldsOf iw).wellFormed = true := by
  have hwf : (fieldsOf iw).wellFormed =
      ((decodeKind (kindField iw)).isSome && !rsvField iw && (decodeReg (selField iw)).isSome) := by
    rw [decodeKind_isSome, decodeReg_isSome]
    rfl
  rw [hwf, decode]
  cases decodeKind (kindField iw) with
  | none => simp
  | some mk =>
    cases rsvField iw with
    | true => simp
    | false => cases decodeReg (selField iw) <;> simp

/-- A word of one of the three illegal sorts fails one test of the check (30_encoding.md R85, R87, R88). -/
theorem exists_decode_eq_error_of_illegal {iw : Byte}
    (h : iw.toNat / 16 ≥ 0xB ∨ iw.getLsbD 3 = true ∨ iw.toNat % 8 = 7) : ∃ e, decode iw = .error e := by
  cases hd : decode iw with
  | error e => exact ⟨e, rfl⟩
  | ok i =>
    have hwf := (exists_decode_eq_ok_iff iw).1 ⟨i, hd⟩
    obtain ⟨⟨hkind, hrsv⟩, hsel⟩ :
        (iw.toNat / 16 ≤ 0xA ∧ iw.getLsbD 3 = false) ∧ iw.toNat % 8 ≠ 7 := by
      simpa [WordFields.wellFormed, WordFields.kindOk, WordFields.rsvOk, WordFields.selOk, fieldsOf, rsvField,
        kindField_toNat, selField_toNat] using hwf
    obtain h | h | h := h
    · omega
    · exact absurd (hrsv.symm.trans h) Bool.false_ne_true
    · exact absurd h hsel

/-! ## The step at an execute call (45_dispatcher.md R240, R241) -/

theorem step_execute_ok {s : State} {iw : Byte} {i : Instr} {rest : List HostCall}
    (h : s.pending = .issue (.execute iw) :: rest) (hd : decode iw = .ok i) :
    step s = exec i { s with pending := rest } := by
  rw [step_issue h, perform, executePort, hd]

theorem step_execute_error {s : State} {iw : Byte} {e : DecodeError} {rest : List HostCall}
    (h : s.pending = .issue (.execute iw) :: rest) (hd : decode iw = .error e) :
    step s = .next { s with pending := rest, response := some ⟨.unsupportedInstruction, none⟩ } := by
  rw [step_issue h, perform, executePort, hd]
  rfl

/-- Settles O6: the port decodes and dispatches. -/
theorem stepRunsTheDecodedInstruction : Obligations.StepRunsTheDecodedInstruction :=
  fun _ _ _ _ => step_execute_ok

/-- Settles O8: a word of any of the three sorts does not decode, and the port then only returns the error. -/
theorem illegalWordIsUnsupportedAndChangesNothing : Obligations.IllegalWordIsUnsupportedAndChangesNothing := by
  intro s iw rest h hbad
  obtain ⟨e, hd⟩ := exists_decode_eq_error_of_illegal hbad
  exact step_execute_error h hd

/-- Settles O9: by what the word decodes to, an instruction, which completes with OK, or an error. -/
theorem onlyIllegalWordsMakeExecuteFail : Obligations.OnlyIllegalWordsMakeExecuteFail := by
  intro s iw rest h
  cases hd : decode iw with
  | error e => exact ⟨_, step_execute_error h hd, by simp, fun _ => rfl⟩
  | ok i =>
    obtain ⟨t, ht⟩ := exec_completes i { s with pending := rest }
    exact ⟨t, (step_execute_ok h hd).trans ht, fun _ => exec_response ht, fun hno => absurd ⟨i, rfl⟩ hno⟩

/-! ## The dispatch table (45_dispatcher.md R242) -/

/-- Settles O22: the marks and the frame of the instruction's one write. -/
theorem execWritesExactlyTheCellsOfTheTable : Obligations.ExecWritesExactlyTheCellsOfTheTable := by
  intro i s
  obtain ⟨t, ht⟩ := exec_completes i s
  exact ⟨t, ht, exec_mark ht, fun _ hc => exec_frame ht hc⟩

/-- Settles O23: agreeing reads give the same write, and every instruction returns OK. -/
theorem resultsDependOnlyOnTheCellsRead : Obligations.ResultsDependOnlyOnTheCellsRead := by
  intro i s t hreads
  obtain ⟨s', hs⟩ := exec_completes i s
  obtain ⟨t', ht⟩ := exec_completes i t
  exact ⟨s', t', hs, ht, (exec_response hs).trans (exec_response ht).symm,
    fun _ hc => exec_same_of_reads hreads hs ht hc⟩

end Sys2Proof.Machine

/-! # Family 60_exceptions.md

Every transaction returns OK or only adds an error response (`perform_ok_or_error`); no transaction depends on the response before
it (`perform_of_response`), so one that fails leaves nothing the next one could see. -/

namespace Sys2Proof.Machine

/-! ## What a status other than OK comes with (60_exceptions.md R302) -/

/-- A transaction returns OK, or only adds to the state a response without a value. -/
theorem perform_ok_or_error {t : Transaction} {s s' : State} (h : perform t s = .next s') :
    (∃ v, s'.response = some ⟨.ok, v⟩) ∨ ∃ st, s' = respond ⟨st, none⟩ s := by
  cases t with
  | execute iw =>
    obtain ⟨_, -, e⟩ | ⟨i, -, e⟩ := executePort_cases iw s
    · exact .inr ⟨_, (Host.Outcome.next.inj (e.symm.trans h)).symm⟩
    · exact .inl ⟨_, exec_response (e.symm.trans h)⟩
  | readRegister c =>
    cases h
    obtain ⟨-, e⟩ | ⟨_, -, e⟩ := readRegisterPort_cases c s
    · exact .inr ⟨_, e⟩
    · exact .inl ⟨_, congrArg State.response e⟩
  | writeRegister c v =>
    cases h
    obtain ⟨-, e⟩ | ⟨_, -, e⟩ := writeRegisterPort_cases c v s
    · exact .inr ⟨_, e⟩
    · exact .inl ⟨_, congrArg State.response e⟩
  | getPair c =>
    cases h
    obtain ⟨-, e⟩ | ⟨_, -, e⟩ := getPairPort_cases c s
    · exact .inr ⟨_, e⟩
    · exact .inl ⟨_, congrArg State.response e⟩
  | setPair c v =>
    cases h
    obtain ⟨-, e⟩ | ⟨_, -, e⟩ := setPairPort_cases c v s
    · exact .inr ⟨_, e⟩
    · exact .inl ⟨_, congrArg State.response e⟩
  | flags =>
    cases h
    exact .inl ⟨_, rfl⟩

/-- A transaction whose status is not OK returns no value and only adds its response. -/
theorem perform_of_error {t : Transaction} {s s' : State} {r : Response} (h : perform t s = .next s')
    (hr : s'.response = some r) (hst : r.status ≠ .ok) : r.value = none ∧ s' = respond r s := by
  obtain ⟨v, hv⟩ | ⟨st, rfl⟩ := perform_ok_or_error h
  · obtain rfl := Option.some.inj (hv.symm.trans hr)
    exact absurd rfl hst
  · obtain rfl := Option.some.inj hr
    exact ⟨rfl, rfl⟩

/-- Settles O42: a step at an issued call is that transaction. -/
theorem errorStatusChangesNothing : Obligations.ErrorStatusChangesNothing := by
  intro s s' t rest r hp h hr hst
  exact perform_of_error ((step_issue hp).symm.trans h) hr hst

/-! ## The next transaction (60_exceptions.md R303) -/

theorem exec_of_response (i : Instr) (s : State) (o : Option Response) : exec i { s with response := o } = exec i s := by
  cases i <;> rfl

/-- A transaction neither reads nor keeps the response before it. -/
theorem perform_of_response (t : Transaction) (s : State) (o : Option Response) :
    perform t { s with response := o } = perform t s := by
  cases t with
  | execute iw =>
    simp only [perform, executePort]
    cases decode iw with
    | error e => rfl
    | ok i => exact exec_of_response i s o
  | readRegister c | writeRegister c v =>
    simp only [perform, readRegisterPort, writeRegisterPort]
    cases decodeReg c <;> rfl
  | getPair c | setPair c v =>
    simp only [perform, getPairPort, setPairPort]
    cases decodePair c with
    | none => rfl
    | some p => cases p <;> rfl
  | flags => rfl

/-- Settles O43: the failed call leaves a response behind and nothing else, and no transaction depends on it. -/
theorem failedTransactionLeavesNoTrace : Obligations.FailedTransactionLeavesNoTrace := by
  intro s s' bad t rest r hp h hr hst
  obtain ⟨-, rfl⟩ := errorStatusChangesNothing s s' bad _ r hp h hr hst
  calc
    step { s with pending := .issue t :: rest, response := some r }
      = perform t { s with pending := rest, response := some r } := step_issue rfl
    _ = perform t { s with pending := rest } := perform_of_response t { s with pending := rest } (some r)
    _ = step { s with pending := .issue t :: rest } := (step_issue (s := { s with pending := .issue t :: rest }) rfl).symm

/-! ## The latest response (notes/assumptions/7.md) -/

/-- Settles O56: a step keeps the response where it is idle, and else it is that of one transaction. -/
theorem stepKeepsTheResponseLegal : Obligations.StepKeepsTheResponseLegal := by
  intro s s' hs h
  obtain ⟨-, rfl⟩ | ⟨t, rest, -, hp⟩ := step_cases h
  · exact hs
  · exact fun r hr hst => (perform_of_error hp hr hst).1

/-- Settles O57: no response is there to have a value. -/
theorem responseIsLegalAtReset : Obligations.ResponseIsLegalAtReset := by
  intro r hr
  cases hr

end Sys2Proof.Machine

/-! # Family 70_reset_and_hazards.md

Every transaction completes (`perform_completes`), so a step at an issued call takes that call and no other
(`step_issue_completes`), and a run is that step again and again. -/

namespace Sys2Proof.Machine

/-! ## Sequencing and runs (70_reset_and_hazards.md R350) -/

/-- The ports always answer, and every word decodes to an instruction, which completes, or to an error, which is answered. -/
theorem perform_completes (t : Transaction) (s : State) : ∃ s', perform t s = .next s' := by
  cases t with
  | execute iw =>
    obtain ⟨_, -, e⟩ | ⟨i, -, e⟩ := executePort_cases iw s
    · exact ⟨_, e⟩
    · obtain ⟨s', h⟩ := exec_completes i s
      exact ⟨s', e.trans h⟩
  | readRegister | writeRegister | getPair | setPair | flags => exact ⟨_, rfl⟩

theorem step_issue_completes {s : State} {t : Transaction} {rest : List HostCall} (h : s.pending = .issue t :: rest) :
    ∃ s', step s = .next s' ∧ s'.pending = rest := by
  obtain ⟨s', hs⟩ := perform_completes t { s with pending := rest }
  exact ⟨s', (step_issue h).trans hs, perform_pending hs⟩

/-- Settles O45, by induction on the list: the first step takes its head. -/
theorem transactionsAreTakenInOrderAndComplete : Obligations.TransactionsAreTakenInOrderAndComplete := by
  intro l
  induction l with
  | nil => exact fun s rest hp => ⟨s, (runsTo_zero s s).2 rfl, hp⟩
  | cons t l ih =>
    intro s rest hp
    obtain ⟨u, hstep, hu⟩ := step_issue_completes hp
    obtain ⟨s', hrun, hrest⟩ := ih u rest hu
    exact ⟨s', (runsTo_succ ..).2 ⟨u, hstep, hrun⟩, hrest⟩

/-- A step from a state whose calls are in order is idle or takes the first, and the calls left are still in order. -/
theorem step_of_hostInOrder {s : State} (hs : s.HostInOrder) : ∃ s', step s = .next s' ∧ s'.HostInOrder := by
  rcases hp : s.pending with _ | ⟨c, rest⟩
  · exact ⟨s, step_idle hp, hs⟩
  · rw [State.HostInOrder, hp, List.forall_mem_cons] at hs
    obtain ⟨⟨t, rfl⟩, hrest⟩ := hs
    obtain ⟨s', hstep, hpend⟩ := step_issue_completes hp
    exact ⟨s', hstep, by rwa [State.HostInOrder, hpend]⟩

theorem runsTo_of_hostInOrder (n : Nat) {s : State} (hs : s.HostInOrder) : ∃ s', RunsTo n s s' ∧ s'.HostInOrder := by
  induction n generalizing s with
  | zero => exact ⟨s, (runsTo_zero s s).2 rfl, hs⟩
  | succ n ih =>
    obtain ⟨u, hstep, hu⟩ := step_of_hostInOrder hs
    obtain ⟨s', hrun, hs'⟩ := ih hu
    exact ⟨s', (runsTo_succ ..).2 ⟨u, hstep, hrun⟩, hs'⟩

theorem runsTo_idle (n : Nat) {s : State} (h : s.pending = []) : RunsTo n s s := by
  induction n with
  | zero => exact (runsTo_zero s s).2 rfl
  | succ n ih => exact (runsTo_succ ..).2 ⟨s, step_idle h, ih⟩

/-- Settles O46: order is an invariant under which every step answers a next state, and the idle step answers the state. -/
theorem orderedHostNeverSeesAStop : Obligations.OrderedHostNeverSeesAStop :=
  fun _ hs => ⟨fun n => runsTo_of_hostInOrder n hs, fun h n => runsTo_idle n h⟩

end Sys2Proof.Machine

/-! # Marks, the record and the spec's own rule

A transaction is known by the cells it reads and the cells it writes: what it marks (`perform_mark`), records
(`perform_uninitRead`), leaves alone (`perform_frame`) and depends on (`perform_response_of_reads`, `perform_same_of_reads`). Steps
and runs, strict ones too, follow from these. -/

namespace Sys2Proof.Machine

/-! ## Cells and marks -/

theorem sameCell_of_eq {s t : State} (hr : s.regs = t.regs) (hf : s.f = t.f) : ∀ c : Cell, SameCell s t c
  | .reg r => congrArg (PerReg.get · r) hr
  | .flag g => congrArg (PerFlag.get · g) hf

theorem SameCell.symm {s t : State} : ∀ {c : Cell}, SameCell s t c → SameCell t s c
  | .reg _, h => Eq.symm h
  | .flag _, h => Eq.symm h

theorem SameCell.trans {s t u : State} : ∀ {c : Cell}, SameCell s t c → SameCell t u c → SameCell s u c
  | .reg _, h, h' => Eq.trans h h'
  | .flag _, h, h' => Eq.trans h h'

/-- Marks that mark the same cells are the same marks. -/
theorem Marks.eq_of_get {m k : Marks} (h : ∀ c, m.get c = k.get c) : m = k := by
  obtain ⟨mr, mf⟩ := m
  obtain ⟨kr, kf⟩ := k
  rw [Marks.mk.injEq]
  exact ⟨PerReg.eq_of_get fun r => h (.reg r), PerFlag.eq_of_get fun g => h (.flag g)⟩

/-! ## Pairs as cells -/

/-- A pair write changes only the cells behind the pair. -/
theorem writePair_frame (p : Pair) (v : Word16) (s : State) {c : Cell} (hc : c ∉ pairCells p) :
    SameCell s (writePair p v s) c := by
  cases c with
  | reg q => exact (writePair_regs_frame p v s hc).symm
  | flag g =>
    have hp : p ≠ .af := by rintro rfl; cases g <;> simp [pairCells] at hc
    exact congrArg (PerFlag.get · g) (writePair_f_of_ne_af hp v s).symm

/-- The cells behind a written pair hold the same whatever the state the pair is written into. -/
theorem writePair_same (p : Pair) (v : Word16) (s t : State) {c : Cell} (hc : c ∈ pairCells p) :
    SameCell (writePair p v s) (writePair p v t) c := by
  cases p with
  | af =>
    simp only [pairCells, List.mem_cons, List.not_mem_nil, or_false] at hc
    obtain rfl | rfl | rfl | rfl | rfl := hc <;> rfl
  | bc | de | hl =>
    simp only [pairCells, List.mem_cons, List.not_mem_nil, or_false] at hc
    obtain rfl | rfl := hc <;> rfl

/-- The value of a pair depends only on the cells behind it. -/
theorem readPair_of_same {p : Pair} {s t : State} (h : ∀ c ∈ pairCells p, SameCell s t c) :
    readPair s p = readPair t p := by
  cases p with
  | af =>
    have hf : s.f = t.f := PerFlag.eq_of_get fun g => h (.flag g) (by cases g <;> simp [pairCells])
    exact congrArg₂ joinBytes (h (.reg .a) (by simp [pairCells])) (congrArg encodeFlags hf)
  | bc => exact congrArg₂ joinBytes (h (.reg .b) (by simp [pairCells])) (h (.reg .c) (by simp [pairCells]))
  | de => exact congrArg₂ joinBytes (h (.reg .d) (by simp [pairCells])) (h (.reg .e) (by simp [pairCells]))
  | hl => exact congrArg₂ joinBytes (h (.reg .h) (by simp [pairCells])) (h (.reg .l) (by simp [pairCells]))

/-! ## What one transaction records, leaves alone and depends on -/

theorem WriteBack.apply_uninitRead (w : WriteBack) (s : State) : (w.apply s).uninitRead = s.uninitRead := by
  cases w <;> rfl

/-- An instruction records the first unwritten cell of those it reads, unless a record stands. -/
theorem exec_uninitRead {i : Instr} {s t : State} (h : exec i s = .next t) :
    t.uninitRead = s.uninitRead.or (firstUnwritten s.written (cellsRead i)) := by
  obtain ⟨w, -, hs⟩ := exec_writeBack i s
  cases hs.symm.trans h
  rw [respond_uninitRead, w.apply_uninitRead, need_uninitRead]

/-- A transaction records the first unwritten cell of those it reads, unless a record stands. -/
theorem perform_uninitRead {t : Transaction} {s s' : State} (h : perform t s = .next s') :
    s'.uninitRead = s.uninitRead.or (firstUnwritten s.written (transactionReads t)) := by
  cases t with
  | execute iw =>
    obtain ⟨_, hd, e⟩ | ⟨i, hd, e⟩ := executePort_cases iw s <;> rw [perform, e] at h
    · cases h
      simp [transactionReads, hd]
    · simp [transactionReads, hd, exec_uninitRead h]
  | readRegister k =>
    cases h
    obtain ⟨hd, e⟩ | ⟨_, hd, e⟩ := readRegisterPort_cases k s <;> simp [e, transactionReads, hd]
  | writeRegister k v =>
    cases h
    obtain ⟨-, e⟩ | ⟨_, -, e⟩ := writeRegisterPort_cases k v s <;> simp [e, transactionReads]
  | getPair k =>
    cases h
    obtain ⟨hd, e⟩ | ⟨_, hd, e⟩ := getPairPort_cases k s <;> simp [e, transactionReads, hd]
  | setPair k v =>
    cases h
    obtain ⟨-, e⟩ | ⟨_, -, e⟩ := setPairPort_cases k v s <;> simp [e, transactionReads]
  | flags =>
    cases h
    rfl

/-- A transaction leaves the cells it does not write as they are. -/
theorem perform_frame {t : Transaction} {s s' : State} (h : perform t s = .next s') {c : Cell}
    (hc : c ∉ transactionWrites t) : SameCell s s' c := by
  cases t with
  | execute iw =>
    obtain ⟨_, -, e⟩ | ⟨i, hd, e⟩ := executePort_cases iw s <;> rw [perform, e] at h
    · cases h
      exact sameCell_of_eq rfl rfl c
    · exact exec_frame h (by simpa [transactionWrites, hd] using hc)
  | readRegister k =>
    cases h
    obtain ⟨-, e⟩ | ⟨_, -, e⟩ := readRegisterPort_cases k s <;> exact sameCell_of_eq (by rw [e]; rfl) (by rw [e]; rfl) c
  | writeRegister k v =>
    cases h
    obtain ⟨-, e⟩ | ⟨r, hd, e⟩ := writeRegisterPort_cases k v s <;> rw [e]
    · exact sameCell_of_eq rfl rfl c
    · cases c with
      | reg q =>
        have hq : q ≠ r := by simpa [transactionWrites, hd] using hc
        exact (PerReg.get_set_other s.regs v hq).symm
      | flag g => rfl
  | getPair k =>
    cases h
    obtain ⟨-, e⟩ | ⟨_, -, e⟩ := getPairPort_cases k s <;> exact sameCell_of_eq (by rw [e]; rfl) (by rw [e]; rfl) c
  | setPair k v =>
    cases h
    obtain ⟨-, e⟩ | ⟨p, hd, e⟩ := setPairPort_cases k v s <;> rw [e]
    · exact sameCell_of_eq rfl rfl c
    · exact (writePair_frame p v s (by simpa [transactionWrites, hd] using hc)).trans (sameCell_of_eq rfl rfl c)
  | flags =>
    cases h
    exact sameCell_of_eq rfl rfl c

/-- What a transaction returns depends only on the cells it reads. -/
theorem perform_response_of_reads {x : Transaction} {s t s' t' : State} (hr : ∀ c ∈ transactionReads x, SameCell s t c)
    (hs : perform x s = .next s') (ht : perform x t = .next t') : s'.response = t'.response := by
  cases x with
  | execute iw =>
    simp only [perform, executePort] at hs ht
    cases hd : decode iw <;> rw [hd] at hs ht
    · cases hs; cases ht; rfl
    · exact (exec_response hs).trans (exec_response ht).symm
  | readRegister k =>
    cases hs; cases ht
    cases hd : decodeReg k with
    | none => simp [readRegisterPort, hd]
    | some r =>
      have hreg : readReg s r = readReg t r := hr (.reg r) (by simp [transactionReads, hd])
      simp [readRegisterPort, hd, hreg]
  | writeRegister k v =>
    cases hs; cases ht
    cases hd : decodeReg k <;> simp [writeRegisterPort, hd]
  | getPair k =>
    cases hs; cases ht
    cases hd : decodePair k with
    | none => simp [getPairPort, hd]
    | some p =>
      have hpair : readPair s p = readPair t p := readPair_of_same (by simpa [transactionReads, hd] using hr)
      simp [getPairPort, hd, hpair]
  | setPair k v =>
    cases hs; cases ht
    cases hd : decodePair k <;> simp [setPairPort, hd]
  | flags =>
    cases hs; cases ht
    have hf : s.f = t.f := PerFlag.eq_of_get fun g => hr (.flag g) (by cases g <;> simp [transactionReads])
    simp [flagsPort, hf]

/-- What a transaction writes depends only on the cells it reads. -/
theorem perform_same_of_reads {x : Transaction} {s t s' t' : State} (hr : ∀ c ∈ transactionReads x, SameCell s t c)
    (hs : perform x s = .next s') (ht : perform x t = .next t') {c : Cell} (hc : c ∈ transactionWrites x) :
    SameCell s' t' c := by
  cases x with
  | execute iw =>
    simp only [perform, executePort, transactionReads, transactionWrites] at hs ht hr hc
    cases hd : decode iw <;> rw [hd] at hs ht hr hc
    · cases hc
    · exact exec_same_of_reads hr hs ht hc
  | writeRegister k v =>
    cases hs; cases ht
    cases hd : decodeReg k with
    | none => simp [transactionWrites, hd] at hc
    | some r =>
      obtain rfl : c = .reg r := by simpa [transactionWrites, hd, eq_comm] using hc
      simp [writeRegisterPort, hd]
  | setPair k v =>
    cases hs; cases ht
    cases hd : decodePair k with
    | none => simp [transactionWrites, hd] at hc
    | some p =>
      have := writePair_same p v s t (by simpa [transactionWrites, hd] using hc)
      simp only [setPairPort, hd]
      cases c <;> exact this
  | readRegister _ | getPair _ | flags => cases hc

/-! ## Marks along a run (10_state.md R40) -/

theorem step_mark_kept {s s' : State} (h : step s = .next s') {c : Cell} (hc : s.written.get c = true) :
    s'.written.get c = true := by
  obtain ⟨-, rfl⟩ | ⟨t, rest, -, hp⟩ := step_cases h
  · exact hc
  · rw [perform_mark hp, hc, Bool.true_or]

/-- Settles O48: a step is idle or one transaction, and a transaction only adds marks. -/
theorem marksNeverReturnToFalse : Obligations.MarksNeverReturnToFalse :=
  fun _ _ h _ => step_mark_kept h

/-- A cell unmarked after a step was not written by it. -/
theorem step_unmarked_frame {s s' : State} (h : step s = .next s') {c : Cell} (hc : s'.written.get c = false) :
    s.written.get c = false ∧ SameCell s s' c := by
  obtain ⟨-, rfl⟩ | ⟨t, rest, -, hp⟩ := step_cases h
  · exact ⟨hc, sameCell_of_eq rfl rfl c⟩
  · rw [perform_mark hp, Bool.or_eq_false_iff, decide_eq_false_iff_not] at hc
    obtain ⟨hmark, hnot⟩ := hc
    exact ⟨hmark, SameCell.trans (sameCell_of_eq rfl rfl c) (perform_frame hp hnot)⟩

/-- Settles O49, by induction on the number of steps: no step writes a cell and leaves it unmarked. -/
theorem unmarkedCellsAreNeverWritten : Obligations.UnmarkedCellsAreNeverWritten := by
  intro n
  induction n with
  | zero =>
    intro s s' h c hc
    obtain rfl := (runsTo_zero s s').1 h
    exact ⟨hc, sameCell_of_eq rfl rfl c⟩
  | succ n ih =>
    intro s s' h c hc
    obtain ⟨u, hstep, hrun⟩ := (runsTo_succ ..).1 h
    obtain ⟨hu, hsame⟩ := ih u s' hrun c hc
    obtain ⟨hs, hfirst⟩ := step_unmarked_frame hstep hu
    exact ⟨hs, hfirst.trans hsame⟩

/-! ## The record along a run (60_exceptions.md R305) -/

theorem step_uninitRead {s s' : State} {t : Transaction} {rest : List HostCall} (hp : s.pending = .issue t :: rest)
    (h : step s = .next s') : s'.uninitRead = s.uninitRead.or (firstUnwritten s.written (transactionReads t)) :=
  perform_uninitRead (s := { s with pending := rest }) ((step_issue hp).symm.trans h)

/-- Settles O50: every transaction completes and records as `need` does. -/
theorem unwrittenReadIsRecordedOnceAndKept : Obligations.UnwrittenReadIsRecordedOnceAndKept := by
  intro s t rest hp
  obtain ⟨s', h, -⟩ := step_issue_completes hp
  exact ⟨s', h, step_uninitRead hp h⟩

/-- A step keeps a record that stands. -/
theorem step_record_kept {c : Cell} {s s' : State} (hc : s.uninitRead = some c) (h : step s = .next s') :
    s'.uninitRead = some c := by
  obtain ⟨-, rfl⟩ | ⟨t, rest, hp, -⟩ := step_cases h
  · exact hc
  · rw [step_uninitRead hp h, hc, Option.some_or]

/-- Settles O52: with every cell marked, no transaction finds an unwritten one. -/
theorem bootedBlockStaysDefined : Obligations.BootedBlockStaysDefined := by
  rintro s s' ⟨hall, hdef⟩ h
  refine ⟨fun c => step_mark_kept h (hall c), ?_⟩
  obtain ⟨-, rfl⟩ | ⟨t, rest, hp, -⟩ := step_cases h
  · exact hdef
  · rw [State.Defined, step_uninitRead hp h, hdef, Option.none_or, firstUnwritten_eq_none]
    exact fun c _ => hall c

/-! ## Reset contents and safe runs (70_reset_and_hazards.md R341) -/

/-- Where nothing is recorded after a transaction, every cell it read was marked. -/
theorem perform_reads_written {x : Transaction} {s s' : State} (h : perform x s = .next s') (hd : s'.Defined) :
    ∀ c ∈ transactionReads x, s.written.get c = true := by
  rw [State.Defined, perform_uninitRead h, Option.or_eq_none_iff] at hd
  exact (firstUnwritten_eq_none ..).1 hd.2

/-- A transaction that ends without a record keeps two states in agreement on their written cells. -/
theorem perform_agreeOnWritten {x : Transaction} {s t s' t' : State} (hst : AgreeOnWritten s t) (hd : s'.Defined)
    (hs : perform x s = .next s') (ht : perform x t = .next t') : AgreeOnWritten s' t' := by
  obtain ⟨hmarks, hrec, -, hpend, hcells⟩ := hst
  have hreads : ∀ c ∈ transactionReads x, SameCell s t c := fun c hc => hcells c (perform_reads_written hs hd c hc)
  refine ⟨Marks.eq_of_get fun c => ?_, ?_, perform_response_of_reads hreads hs ht, ?_, fun c hc => ?_⟩
  · rw [perform_mark hs, perform_mark ht, hmarks]
  · rw [perform_uninitRead hs, perform_uninitRead ht, hrec, hmarks]
  · rw [perform_pending hs, perform_pending ht, hpend]
  · by_cases hw : c ∈ transactionWrites x
    · exact perform_same_of_reads hreads hs ht hw
    · have hmark : s.written.get c = true := by simpa [perform_mark hs, hw] using hc
      exact ((perform_frame hs hw).symm.trans (hcells c hmark)).trans (perform_frame ht hw)

/-- A step that ends without a record is matched by a step of any state that agrees on the written cells. -/
theorem step_agreeOnWritten {s t s' : State} (hst : AgreeOnWritten s t) (hd : s'.Defined) (h : step s = .next s') :
    ∃ t', step t = .next t' ∧ AgreeOnWritten s' t' := by
  have ⟨hmarks, hrec, hresp, hpend, hcells⟩ := hst
  obtain ⟨hp, rfl⟩ | ⟨x, rest, hp, hx⟩ := step_cases h <;> rw [hpend] at hp
  · exact ⟨t, step_idle hp, hst⟩
  · obtain ⟨t', ht⟩ := perform_completes x { t with pending := rest }
    have hrest : AgreeOnWritten { s with pending := rest } { t with pending := rest } :=
      ⟨hmarks, hrec, hresp, rfl, fun c hc =>
        SameCell.trans (sameCell_of_eq rfl rfl c) ((hcells c hc).trans (sameCell_of_eq rfl rfl c))⟩
    exact ⟨t', (step_issue hp).trans ht, perform_agreeOnWritten hrest hd hx ht⟩

/-- A run that ends without a record went without one. -/
theorem defined_of_runsTo {n : Nat} {s s' : State} (h : RunsTo n s s') (hd : s'.Defined) : s.Defined := by
  cases hs : s.uninitRead with
  | none => exact hs
  | some c =>
    have hkept := runsTo_keeps (fun _ _ => step_record_kept) n s s' hs h
    exact absurd (hd.symm.trans hkept) (by simp)

/-- Settles O53, by induction on the number of steps: each step is matched, and ends without a record. -/
theorem resetContentsNeverReachASafeRun : Obligations.ResetContentsNeverReachASafeRun := by
  intro n
  induction n with
  | zero =>
    rintro s t s' hst ⟨h, hd⟩
    obtain rfl := (runsTo_zero s s').1 h
    have ⟨_, hrec, _⟩ := hst
    exact ⟨t, ⟨(runsTo_zero t t).2 rfl, hrec.symm.trans hd⟩, hst⟩
  | succ n ih =>
    rintro s t s' hst ⟨h, hd⟩
    obtain ⟨u, hstep, hrun⟩ := (runsTo_succ ..).1 h
    obtain ⟨w, hw, huw⟩ := step_agreeOnWritten hst (defined_of_runsTo hrun hd) hstep
    obtain ⟨t', ⟨hrun', hd'⟩, hst'⟩ := ih u w s' huw ⟨hrun, hd⟩
    exact ⟨t', ⟨(runsTo_succ ..).2 ⟨w, hw, hrun'⟩, hd'⟩, hst'⟩

/-! ## The spec's own rule (92_eei_decisions.md D13) -/

/-- Settles O58: the strict transaction faults on the first unwritten cell it reads, and is the plain one where there is none. -/
theorem strictStepFaultsExactlyOnAnUnwrittenRead : Obligations.StrictStepFaultsExactlyOnAnUnwrittenRead := by
  intro s t rest hp
  obtain ⟨u, hu, -⟩ := step_issue_completes hp
  refine ⟨fun c => ?_, fun hw => ?_⟩
  · change _ ↔ firstUnwritten s.written (transactionReads t) = some c
    obtain ⟨hstep, hnone⟩ | ⟨t', rest', c', hp', hsome, hfault⟩ := strictStep_cases s
    · simp [hstep, hu, hnone t rest hp]
    · obtain ⟨⟨⟩, ⟨⟩⟩ := List.cons.inj (hp.symm.trans hp')
      simp [hfault, hsome]
  · have hnone := (firstUnwritten_eq_none ..).2 hw
    have hstrict : strictStep s = step s := by
      rw [strictStep_issue hp, step_issue hp, strictPerform_of_written (s := { s with pending := rest }) hnone]
    exact ⟨u, hstrict.trans hu, hu, by rw [step_uninitRead hp hu, hnone, Option.or_none]⟩

/-- From a state without a record, a step is also the strict step and records nothing, or the strict step faults with the cell
that the step records. -/
theorem step_strict_cases {s u : State} (hd : s.Defined) (h : step s = .next u) :
    (strictStep s = .next u ∧ u.Defined) ∨
      ∃ c, strictStep s = .fault (.uninitRead c) ∧ u.uninitRead = some c := by
  obtain ⟨hstep, hnone⟩ | ⟨t, rest, c, hp, hsome, hfault⟩ := strictStep_cases s
  · refine .inl ⟨hstep.trans h, ?_⟩
    obtain ⟨-, rfl⟩ | ⟨t, rest, hp, -⟩ := step_cases h
    · exact hd
    · rw [State.Defined, step_uninitRead hp h, hd, hnone t rest hp, Option.none_or]
  · exact .inr ⟨c, hfault, by rw [step_uninitRead hp h, hd, hsome, Option.none_or]⟩

/-- From a state without a record, a run is also a strict run and records nothing, or the strict run stops with the cell that the
run records: the first step with a record decides, and the record is kept. -/
theorem runsTo_strict_cases {n : Nat} {s s' : State} (hd : s.Defined) (h : RunsTo n s s') :
    (StrictRunsTo n s s' ∧ s'.Defined) ∨ ∃ c, StrictRunFaults n s c ∧ s'.uninitRead = some c := by
  induction n generalizing s with
  | zero =>
    obtain rfl := (runsTo_zero s s').1 h
    exact .inl ⟨rfl, hd⟩
  | succ n ih =>
    obtain ⟨u, hstep, hrun⟩ := (runsTo_succ ..).1 h
    obtain ⟨hstrict, hu⟩ | ⟨c, hfault, hc⟩ := step_strict_cases hd hstep
    · obtain ⟨hstrun, hs'⟩ | ⟨c, hfault, hc⟩ := ih hu hrun
      · exact .inl ⟨(strictRunsTo_succ ..).2 ⟨u, hstrict, hstrun⟩, hs'⟩
      · exact .inr ⟨c, (strictRunFaults_succ ..).2 (.inr ⟨u, hstrict, hfault⟩), hc⟩
    · exact .inr ⟨c, (strictRunFaults_succ ..).2 (.inl hfault), runsTo_keeps (fun _ _ => step_record_kept) n u s' hc hrun⟩

theorem step_of_strictStep {s u : State} (h : strictStep s = .next u) : step s = .next u := by
  obtain ⟨hstep, -⟩ | ⟨-, -, c, -, -, hfault⟩ := strictStep_cases s
  · exact hstep.symm.trans h
  · cases hfault.symm.trans h

/-- A strict run that ends is a run. -/
theorem runsTo_of_strictRunsTo {n : Nat} {s s' : State} (h : StrictRunsTo n s s') : RunsTo n s s' := by
  induction n generalizing s with
  | zero => exact h
  | succ n ih =>
    obtain ⟨u, hstep, hrun⟩ := (strictRunsTo_succ ..).1 h
    exact (runsTo_succ ..).2 ⟨u, step_of_strictStep hstep, ih hrun⟩

/-- Settles O59: a strict run that ends is a run, and by the two cases of a run it is the one without a record. -/
theorem strictRunsAreTheSafeRuns : Obligations.StrictRunsAreTheSafeRuns := by
  intro n s s' hd
  constructor
  · intro hstrict
    have hrun := runsTo_of_strictRunsTo hstrict
    obtain ⟨-, hs'⟩ | ⟨c, hfault, -⟩ := runsTo_strict_cases hd hrun
    · exact ⟨hrun, hs'⟩
    · cases hstrict.symm.trans hfault
  · rintro ⟨hrun, hs'⟩
    obtain ⟨hstrict, -⟩ | ⟨c, -, hc⟩ := runsTo_strict_cases hd hrun
    · exact hstrict
    · cases hs'.symm.trans hc

/-- Settles O60: by the two cases of a run, a strict fault and a record come together and name one cell. -/
theorem strictRunFaultsWhereTheRecordIsMade : Obligations.StrictRunFaultsWhereTheRecordIsMade := by
  intro n s s' c hd hrun
  obtain ⟨hstrict, hs'⟩ | ⟨k, hfault, hk⟩ := runsTo_strict_cases hd hrun
  · constructor
    · intro h
      cases hstrict.symm.trans h
    · intro h
      cases hs'.symm.trans h
  · constructor
    · intro h
      cases hfault.symm.trans h
      exact hk
    · intro h
      cases hk.symm.trans h
      exact hfault

/-! ## Booting by set_pair (70_reset_and_hazards.md R344) -/

/-- Transactions that read no cell run to the end, record nothing and mark every cell one of them writes. -/
theorem runsTo_of_no_reads {l : List Transaction} {s : State} {rest : List HostCall}
    (hr : ∀ t ∈ l, transactionReads t = []) (hp : s.pending = l.map .issue ++ rest) :
    ∃ s', RunsTo l.length s s' ∧
      (∀ c, (s.written.get c = true ∨ ∃ t ∈ l, c ∈ transactionWrites t) → s'.written.get c = true) ∧
      s'.uninitRead = s.uninitRead ∧ s'.pending = rest := by
  induction l generalizing s with
  | nil => exact ⟨s, (runsTo_zero s s).2 rfl, by simp, rfl, hp⟩
  | cons t l ih =>
    obtain ⟨ht, hr⟩ := List.forall_mem_cons.1 hr
    obtain ⟨u, hstep, hu⟩ := step_issue_completes hp
    obtain ⟨s', hrun, hmark, hrec, hrest⟩ := ih hr hu
    refine ⟨s', (runsTo_succ ..).2 ⟨u, hstep, hrun⟩, fun c hc => hmark c ?_, ?_, hrest⟩
    · have hut := perform_mark ((step_issue hp).symm.trans hstep) c
      simp only [List.mem_cons, exists_eq_or_imp] at hc
      rcases hc with hc | hc | hc
      · exact .inl (by simp [hut, hc])
      · exact .inl (by simp [hut, hc])
      · exact .inr hc
    · rw [hrec, step_uninitRead hp hstep, ht, firstUnwritten_nil, Option.or_none]

/-- Every cell is behind a pair (10_state.md R37). -/
theorem exists_mem_pairCells (c : Cell) : ∃ p, c ∈ pairCells p := by
  rcases c with r | g
  · cases r with
    | a => exact ⟨.af, by decide⟩
    | b | c => exact ⟨.bc, by decide⟩
    | d | e => exact ⟨.de, by decide⟩
    | h | l => exact ⟨.hl, by decide⟩
  · exact ⟨.af, by cases g <;> decide⟩

/-- Settles O51: set_pair reads no cell, and the four pairs together have all eleven behind them. -/
theorem fourSetPairsWriteEveryCell : Obligations.FourSetPairsWriteEveryCell := by
  intro s v0 v1 v2 v3 l rest hl hp
  have hr : ∀ t ∈ l, transactionReads t = [] := by simp [hl.mem_iff, transactionReads]
  obtain ⟨s', hrun, hmark, hrec, hrest⟩ := runsTo_of_no_reads hr hp
  rw [hl.length_eq] at hrun
  refine ⟨s', hrun, fun c => hmark c (.inr ?_), hrec, hrest⟩
  obtain ⟨p, hc⟩ := exists_mem_pairCells c
  have hmem : ∃ v, Transaction.setPair (pairCode p) v ∈ l := by
    cases p with
    | af => exact ⟨v0, by simp [hl.mem_iff]⟩
    | bc => exact ⟨v1, by simp [hl.mem_iff]⟩
    | de => exact ⟨v2, by simp [hl.mem_iff]⟩
    | hl => exact ⟨v3, by simp [hl.mem_iff]⟩
  obtain ⟨v, hv⟩ := hmem
  exact ⟨_, hv, by simpa [transactionWrites] using hc⟩

/-! ## What stops a step (60_exceptions.md R319) -/

/-- Settles O44: by the head of the host's calls. -/
theorem onlyAnOverlappingCallStopsTheBlock : Obligations.OnlyAnOverlappingCallStopsTheBlock := by
  intro s
  rcases hp : s.pending with _ | ⟨⟨t⟩ | ⟨t⟩, rest⟩
  · simp [step_idle hp]
  · obtain ⟨s', h, -⟩ := step_issue_completes hp
    simp [h]
  · simp [step_overlap hp, eq_comm]

/-! ## Reset (70_reset_and_hazards.md R341) -/

/-- Settles O47, cell by cell of the reset state. -/
theorem resetLeavesEveryMarkFalse : Obligations.ResetLeavesEveryMarkFalse := by
  refine ⟨fun c => ?_, rfl, rfl⟩
  rcases c with r | g
  · cases r <;> rfl
  · cases g <;> rfl

/-- Settles O55: no flag is marked at reset. -/
theorem flagMarksAreTogetherAtReset : Obligations.FlagMarksAreTogetherAtReset := ⟨rfl, rfl, id⟩

end Sys2Proof.Machine

/-! # Words and assembly text

`decode` is inverted field by field (`fields_of_decode`, `word_of_fields`). A line of assembly is known by its pieces
(`assembleLine_of_pieces`), and a text of pieces splits into them (`splitText_append_sep`). -/

namespace Sys2Proof.Machine

/-! ## Decoding back to the word (30_encoding.md R95) -/

theorem regCode_of_decodeReg {c : RegCode} {r : Reg} (h : decodeReg c = some r) : regCode r = c := by
  revert c
  cases r <;> decide

/-- The kind table read back: what a kind code builds has that code and the operand given. -/
theorem kindCode_of_decodeKind {k : KindCode} {mk : Reg → Instr} (h : decodeKind k = some mk) (r : Reg) :
    kindCode (mk r) = k ∧ operandReg (mk r) = r := by
  unfold decodeKind at h
  split at h <;> cases h <;> exact ⟨BitVec.eq_of_toNat_eq (Eq.symm ‹_›), rfl⟩

/-- A word that decodes passes the three tests, and its fields name the kind and the operand. -/
theorem fields_of_decode {w : Byte} {i : Instr} (h : decode w = .ok i) :
    ∃ mk r, decodeKind (kindField w) = some mk ∧ rsvField w = false ∧ decodeReg (selField w) = some r ∧ i = mk r := by
  unfold decode at h
  split at h
  · cases h
  · split at h
    · cases h
    · split at h
      · cases h
      · cases h
        exact ⟨_, _, ‹_›, by simpa using ‹¬rsvField w = true›, ‹_›, rfl⟩

/-- A word with bit 3 clear is made of its kind and selector fields. -/
theorem word_of_fields {w : Byte} (h : rsvField w = false) :
    (kindField w).setWidth 8 <<< 4 ||| (selField w).setWidth 8 = w := by
  ext k hk
  have h3 : w[3] = false := h
  interval_cases k <;> simp [kindField, selField, h3]

theorem encode_of_decode {w : Byte} {i : Instr} (h : decode w = .ok i) : encode i = w := by
  obtain ⟨mk, r, hk, hrsv, hr, rfl⟩ := fields_of_decode h
  obtain ⟨hkind, hop⟩ := kindCode_of_decodeKind hk r
  rw [encode, hkind, hop, regCode_of_decodeReg hr, word_of_fields hrsv]

/-- Settles O2: each table read back gives the code, and the codes are the fields of the word. -/
theorem decodeAndEncodeAgree : Obligations.DecodeAndEncodeAgree :=
  ⟨decode_encode, fun _ _ => encode_of_decode⟩

/-- Bit 3 as a number. -/
theorem rsvField_eq (w : Byte) : rsvField w = decide (w.toNat / 8 % 2 = 1) := Nat.testBit_eq_decide_div_mod_eq

/-- The three tests on the fields, as one bound on each digit of the word. -/
theorem wellFormed_fieldsOf_iff (w : Byte) :
    (fieldsOf w).wellFormed = true ↔ w.toNat / 16 ≤ 0xA ∧ w.toNat % 16 ≤ 6 := by
  simp only [WordFields.wellFormed, WordFields.kindOk, WordFields.rsvOk, WordFields.selOk, fieldsOf, rsvField_eq,
    kindField_toNat, selField_toNat, Bool.and_eq_true, decide_eq_true_eq, Bool.not_eq_true', decide_eq_false_iff_not]
  omega

/-- Settles O3: the decoder accepts what the well-formedness check accepts, whose three tests bound the two digits. -/
theorem legalWordsAreTheOpcodeMap : Obligations.LegalWordsAreTheOpcodeMap :=
  fun w => ⟨(exists_decode_eq_ok_iff w).trans (wellFormed_fieldsOf_iff w), exists_decode_eq_ok_iff w⟩

/-- Settles O1: the legal words are the encodings of their instructions, and each illegal word fails its own test. -/
theorem wordsOfTheOpcodeMapDecode : Obligations.WordsOfTheOpcodeMapDecode :=
  ⟨decode_encode (.add .b), decode_encode (.add16 .c), decode_encode (.adc .l), decode_encode (.sbc .a),
    decode_encode (.xor .a), decode_encode (.cp .e), decode_encode (.inc .l), decode_encode (.dec .h), rfl, rfl, rfl⟩

theorem tableWord_toNat (w : Byte) : tableWord 8 w.toNat = w := by
  rw [tableWord, Nat.mod_eq_of_lt w.isLt, BitVec.ofNat_toNat, BitVec.setWidth_eq]

/-- Settles O7: the placed word is the head of the host's calls, and the step takes it away again. -/
theorem placedWordIsRunByTheNextStep : Obligations.PlacedWordIsRunByTheNextStep := by
  intro i s
  rw [State.withFetchWord, tableWord_toNat]
  exact step_execute_encode rfl

/-! ## Splitting a text into pieces (30_encoding.md R96) -/

/-- Characters that are no separator go to the piece under way. -/
theorem splitText_append {sep : Char} {p : List Char} (hp : sep ∉ p) (cur t : List Char) :
    splitText sep cur (p ++ t) = splitText sep (p.reverse ++ cur) t := by
  induction p generalizing cur with
  | nil => rfl
  | cons ch p ih =>
    obtain ⟨hne, hp⟩ := not_or.1 (mt List.mem_cons.2 hp)
    rw [List.cons_append, splitText, if_neg (Ne.symm hne), ih hp, List.reverse_cons, List.append_assoc]
    rfl

/-- A piece ends at the separator. -/
theorem splitText_append_sep {sep : Char} {p : List Char} (hp : sep ∉ p) (hne : p ≠ []) (t : List Char) :
    splitText sep [] (p ++ sep :: t) = p :: splitText sep [] t := by
  simp [splitText_append hp, splitText, hne]

/-- The last piece needs no separator after it. -/
theorem splitText_piece {sep : Char} {p : List Char} (hp : sep ∉ p) (hne : p ≠ []) : splitText sep [] p = [p] := by
  have h := splitText_append hp [] []
  simpa [splitText, hne] using h

/-! ## One line (30_encoding.md R96) -/

/-- A character of an instruction's text: in upper case, got back from lower case, and in neither case the start of a comment or
the end of a line. `isAsmChar_of_mem` ties it to the text. -/
def IsAsmChar (ch : Char) : Prop :=
  ch.toUpper = ch ∧ ch.toLower.toUpper = ch ∧ ch ≠ ';' ∧ ch.toLower ≠ ';' ∧ ch ≠ '\n'

theorem isAsmChar_mnemonicOf (i : Instr) : ∀ ch ∈ mnemonicOf i, IsAsmChar ch := by
  cases i <;> simp [IsAsmChar, mnemonicOf]

theorem isAsmChar_regNameOf (r : Reg) : IsAsmChar (regNameOf r) := by
  cases r <;> simp [IsAsmChar, regNameOf]

theorem isAsmChar_of_mem {i : Instr} {ch : Char} (h : ch ∈ assemblyText i) : IsAsmChar ch := by
  simp only [assemblyText, List.mem_append, List.mem_cons, List.not_mem_nil, or_false] at h
  obtain h | rfl | rfl := h
  · exact isAsmChar_mnemonicOf i ch h
  · simp [IsAsmChar]
  · exact isAsmChar_regNameOf _

theorem mnemonicOf_ne_nil (i : Instr) : mnemonicOf i ≠ [] := by cases i <;> simp [mnemonicOf]

theorem blank_notMem_mnemonicOf (i : Instr) : ' ' ∉ mnemonicOf i := by cases i <;> simp [mnemonicOf]

theorem regNameOf_ne_blank (r : Reg) : ' ' ≠ regNameOf r := by cases r <;> decide

theorem splitText_assemblyText (i : Instr) :
    splitText ' ' [] (assemblyText i) = [mnemonicOf i, [regNameOf (operandReg i)]] := by
  rw [assemblyText, splitText_append_sep (blank_notMem_mnemonicOf i) (mnemonicOf_ne_nil i),
    splitText_piece (by simpa using regNameOf_ne_blank _) (by simp)]

/-- The blank before a comment ends the register name, and no piece follows it. -/
theorem splitText_assemblyText_blank (i : Instr) :
    splitText ' ' [] (assemblyText i ++ [' ']) = [mnemonicOf i, [regNameOf (operandReg i)]] := by
  have hreg : splitText ' ' [] (regNameOf (operandReg i) :: [' ']) = [[regNameOf (operandReg i)]] :=
    splitText_append_sep (p := [_]) (by simpa using regNameOf_ne_blank _) (by simp) []
  rw [assemblyText, List.append_assoc, List.cons_append, splitText_append_sep (blank_notMem_mnemonicOf i)
    (mnemonicOf_ne_nil i), List.cons_append, List.nil_append, hreg]

theorem mem_allInstrs (i : Instr) : i ∈ allInstrs := by
  have hreg (r : Reg) : r ∈ allRegs := by cases r <;> simp [allRegs]
  cases i <;> simp [allInstrs, hreg]

theorem regNameOf_injective : Function.Injective regNameOf := by
  intro r q h
  cases r <;> cases q <;> simp [regNameOf] at h ⊢

/-- The mnemonic fixes the kind. -/
theorem eq_of_mnemonicOf_eq {i j : Instr} (hm : mnemonicOf i = mnemonicOf j) (hr : operandReg i = operandReg j) : i = j := by
  cases i <;> cases j <;> simp [mnemonicOf, operandReg] at hm hr ⊢ <;> assumption

/-- The list holds every instruction, so a test that only one passes finds it. -/
theorem find?_allInstrs_of_unique {p : Instr → Bool} {i : Instr} (hi : p i = true) (hu : ∀ j, p j = true → j = i) :
    allInstrs.find? p = some i := by
  obtain ⟨j, hj⟩ := Option.isSome_iff_exists.1 (List.find?_isSome.2 ⟨i, mem_allInstrs i, hi⟩)
  rw [hj, hu j (List.find?_some hj)]

/-- A line whose pieces before the comment are an instruction's mnemonic and register name is that instruction. -/
theorem assembleLine_of_pieces {l : List Char} {i : Instr}
    (h : splitText ' ' [] ((stripComment l).map Char.toUpper) = [mnemonicOf i, [regNameOf (operandReg i)]]) :
    assembleLine l = .instr i := by
  have hfind : allInstrs.find? (fun j => decide (mnemonicOf j = mnemonicOf i ∧
      [regNameOf (operandReg j)] = [regNameOf (operandReg i)])) = some i := by
    refine find?_allInstrs_of_unique (by simp) fun j hj => ?_
    obtain ⟨hm, hr⟩ := of_decide_eq_true hj
    exact eq_of_mnemonicOf_eq hm (regNameOf_injective (List.singleton_inj.1 hr))
  simp only [assembleLine, h, hfind]

theorem map_eq_self_of_forall {l : List Char} {f : Char → Char} (h : ∀ ch ∈ l, f ch = ch) : l.map f = l := by
  rw [List.map_congr_left h, List.map_id']

theorem assembleLine_assemblyText (i : Instr) : assembleLine (assemblyText i) = .instr i := by
  have hne (ch : Char) (h : ch ∈ assemblyText i) : (ch != ';') = true := by
    obtain ⟨-, -, hne, -, -⟩ := isAsmChar_of_mem h
    simpa using hne
  have hupper (ch : Char) (h : ch ∈ assemblyText i) : ch.toUpper = ch := by
    obtain ⟨hupper, -⟩ := isAsmChar_of_mem h
    exact hupper
  apply assembleLine_of_pieces
  rw [stripComment, List.takeWhile_eq_self_iff.2 hne, map_eq_self_of_forall hupper, splitText_assemblyText]

theorem assembleLine_lower_comment (i : Instr) (comment : List Char) :
    assembleLine ((assemblyText i).map Char.toLower ++ [' ', ';'] ++ comment) = .instr i := by
  have hne (ch : Char) (h : ch ∈ (assemblyText i).map Char.toLower ++ [' ']) : (ch != ';') = true := by
    simp only [List.mem_append, List.mem_map, List.mem_singleton] at h
    obtain ⟨ch, h, rfl⟩ | rfl := h
    · obtain ⟨-, -, -, hne, -⟩ := isAsmChar_of_mem h
      simpa using hne
    · rfl
  have hstrip : stripComment ((assemblyText i).map Char.toLower ++ [' ', ';'] ++ comment) =
      (assemblyText i).map Char.toLower ++ [' '] := by
    have happ := List.takeWhile_append_of_pos (l₂ := ';' :: comment) hne
    simpa [stripComment] using happ
  have hupper : ((assemblyText i).map Char.toLower ++ [' ']).map Char.toUpper = assemblyText i ++ [' '] := by
    rw [List.map_append, List.map_map, map_eq_self_of_forall fun ch h => ?_]
    · rfl
    · obtain ⟨-, hlu, -⟩ := isAsmChar_of_mem h
      exact hlu
  apply assembleLine_of_pieces
  rw [hstrip, hupper, splitText_assemblyText_blank]

/-- Settles O4: both forms of the line have the instruction's mnemonic and register name as their pieces. -/
theorem assemblyTextAssembles : Obligations.AssemblyTextAssembles :=
  fun i comment => ⟨assembleLine_assemblyText i, assembleLine_lower_comment i comment⟩

/-! ## A program, one instruction a line (30_encoding.md R95, R97) -/

theorem splitText_program (l : List Instr) :
    splitText '\n' [] (l.flatMap (fun i => assemblyText i ++ ['\n'])) = l.map assemblyText := by
  induction l with
  | nil => rfl
  | cons i l ih =>
    have hend : '\n' ∉ assemblyText i := by
      intro h
      obtain ⟨-, -, -, -, hne⟩ := isAsmChar_of_mem h
      exact hne rfl
    have hne : assemblyText i ≠ [] := by simp [assemblyText]
    rw [List.flatMap_cons, List.append_assoc, List.map_cons, ← ih]
    exact splitText_append_sep hend hne _

theorem collectLines_instr (l : List Instr) : collectLines (l.map .instr) = some l := by
  induction l with
  | nil => rfl
  | cons i l ih => rw [List.map_cons, collectLines, ih, Option.map_some]

/-- Settles O5: the lines of the text are the instructions' texts, and each line assembles to its instruction. -/
theorem programTextAssemblesLineByLine : Obligations.ProgramTextAssemblesLineByLine := by
  intro l
  have hlines : (l.map assemblyText).map assembleLine = l.map .instr := by
    simp [assembleLine_assemblyText]
  rw [assemble, splitText_program, hlines, collectLines_instr, Option.map_some]

end Sys2Proof.Machine

/-! # ADD16, unwritten operands, gate-level flags, corner cases and the ports again

The bits where a sum differs from its operands are its carries (`xor_add_getLsbD`); a subtraction is the addition it undoes
(`addResult_subResult`). The corner cases and the repeated port calls follow from one small lemma a function. -/

namespace Sys2Proof.Machine

/-! ## ADD16 (42_alu_arith.md R165) -/

theorem hlOperand_toNat (s : State) : (hlOperand s).toNat = s.regs.h.toNat * 256 + s.regs.l.toNat := joinBytes_toNat ..

theorem wideOperand_toNat (s : State) (r : Reg) : (wideOperand s r).toNat = (s.regs.get r).toNat :=
  BitVec.toNat_setWidth_of_le (by decide)

/-- Settles O11: HL takes the sum, whose halves and flags are those of the sum as a number. -/
theorem add16AddsAByteToHL : Obligations.Add16AddsAByteToHL := by
  intro r s hh hl hr hlNum v
  have hneed : need (cellsRead (.add16 r)) s = s := need_of_written (by simp [cellsRead, hh, hl, hr])
  have hexec : exec (.add16 r) s = .next (returnOk (writeFlags (add16Flags (hlOperand s) (wideOperand s r))
      (writePair .hl (add16Result (hlOperand s) (wideOperand s r)) (need (cellsRead (.add16 r)) s)))) := rfl
  have hsum : (add16Result (hlOperand s) (wideOperand s r)).toNat = (hlNum + v) % 65536 := by
    rw [add16Result_toNat, hlOperand_toNat, wideOperand_toNat]
  rw [hneed] at hexec
  refine ⟨_, hexec, ?_, ?_, fun q hqh hql => ?_, rfl, rfl, ?_, ?_, ⟨rfl, rfl, rfl⟩, decode_encode (.add16 r)⟩
  · exact (highByte_toNat _).trans (by rw [hsum])
  · exact (lowByte_toNat _).trans (by rw [hsum, Nat.mod_mod_of_dvd _ (by decide)])
  · exact writePair_regs_frame .hl _ s (by simp [pairCells, hqh, hql])
  · exact congrArg₂ (fun x y => decide ((x &&& 0xFFF) + (y &&& 0xFFF) > 0xFFF)) (hlOperand_toNat s) (wideOperand_toNat s r)
  · exact congrArg₂ (fun x y => decide (x + y > 65535)) (hlOperand_toNat s) (wideOperand_toNat s r)

/-! ## Unwritten operands (45_dispatcher.md R246) -/

/-- The registers and flags after a write depend only on those before it. -/
theorem WriteBack.apply_of_same {s t : State} (hr : s.regs = t.regs) (hf : s.f = t.f) (w : WriteBack) :
    (w.apply s).regs = (w.apply t).regs ∧ (w.apply s).f = (w.apply t).f := by
  cases w <;> simp [apply, writePair, hr, hf]

/-- The marks have no part in what an instruction does to registers and flags. -/
theorem exec_of_same {i : Instr} {s t s' t' : State} (hr : s.regs = t.regs) (hf : s.f = t.f)
    (hs : exec i s = .next s') (ht : exec i t = .next t') : s'.regs = t'.regs ∧ s'.f = t'.f := by
  obtain ⟨w, -, hs', ht'⟩ := exec_writeBack_of_reads (i := i) fun c _ => sameCell_of_eq hr hf c
  cases hs'.symm.trans hs
  cases ht'.symm.trans ht
  exact w.apply_of_same (s := need _ s) (t := need _ t) hr hf

/-- Settles O21: the instruction completes whatever the marks, and the record is that of its `need`. -/
theorem unwrittenOperandIsRecordedAndTheInstructionCompletes :
    Obligations.UnwrittenOperandIsRecordedAndTheInstructionCompletes := by
  intro i s
  obtain ⟨t, ht⟩ := exec_completes i s
  obtain ⟨u, hu⟩ := exec_completes i
    { s with written := ⟨⟨true, true, true, true, true, true, true⟩, ⟨true, true, true, true⟩⟩ }
  obtain ⟨hregs, hf⟩ := exec_of_same (by rfl) (by rfl) ht hu
  exact ⟨t, u, ht, hu, hregs, hf, exec_response ht, exec_pending ht, exec_uninitRead ht⟩

/-! ## Gate-level flags (42_alu_arith.md R187) -/

/-- Bit `k` of a word, as the gate-level form takes it. -/
theorem shiftRight_and_one_beq {w : Nat} (hw : 0 < w) (x : BitVec w) (k : Nat) :
    (x >>> k &&& 1#w == 1#w) = x.getLsbD k := by
  rw [BitVec.and_one_eq_setWidth_ofBool_getLsbD, BitVec.getLsbD_ushiftRight, Nat.add_zero]
  have hone : BitVec.setWidth w 1#1 = 1#w := BitVec.eq_of_toNat_eq (by simp)
  cases x.getLsbD k <;> simp [hw.ne', hone]

/-- Where a sum differs from its operands bit by bit, a carry came in (`BitVec.carry`, from the bits below). -/
theorem xor_add_getLsbD {w k : Nat} (hk : k < w) (x y : BitVec w) (cin : Bool) :
    (x ^^^ y ^^^ (x + y + (BitVec.ofBool cin).setWidth w)).getLsbD k = BitVec.carry k x y cin := by
  rw [BitVec.getLsbD_xor, BitVec.getLsbD_xor, BitVec.getLsbD_add_add_bool hk]
  cases x.getLsbD k <;> cases y.getLsbD k <;> simp

theorem addResult_eq (a v : Byte) (cin : Bool) : addResult a v cin.toNat = a + v + (BitVec.ofBool cin).setWidth 8 := by
  apply BitVec.eq_of_toNat_eq
  rw [addResult_toNat]
  cases cin <;> simp

/-- The gate-level half-carry of an addition is the carry out of the low digits. -/
theorem gateHalfCarry_addResult (a v : Byte) (cin : Bool) :
    gateHalfCarry a v (addResult a v cin.toNat) = decide (lowNibble a + lowNibble v + cin.toNat > 0xF) := by
  rw [gateHalfCarry, shiftRight_and_one_beq (by decide), addResult_eq, xor_add_getLsbD (by decide), BitVec.carry,
    lowNibble_eq, lowNibble_eq]
  rfl

/-- A difference is what adds up to the first operand. -/
theorem addResult_subResult (a v : Byte) (cin : Nat) : addResult (subResult a v cin) v cin = a := by
  have hsub := subResult_toNat a v cin
  apply BitVec.eq_of_toNat_eq
  rw [addResult_toNat]
  omega

/-- The gate-level half-carry of a subtraction is that of the addition it undoes, which carries where the low digits borrow. -/
theorem gateHalfCarry_subResult (a v : Byte) (cin : Bool) :
    gateHalfCarry a v (subResult a v cin.toNat) = decide (lowNibble a < lowNibble v + cin.toNat) := by
  have hgate : gateHalfCarry a v (subResult a v cin.toNat) =
      gateHalfCarry (subResult a v cin.toNat) v (addResult (subResult a v cin.toNat) v cin.toNat) := by
    rw [addResult_subResult, gateHalfCarry, gateHalfCarry]
    congr 3
    ac_rfl
  have hsub := subResult_toNat a v cin.toNat
  have hcin : cin.toNat ≤ 1 := Bool.toNat_le cin
  rw [hgate, gateHalfCarry_addResult, lowNibble_eq, lowNibble_eq, lowNibble_eq, decide_eq_decide]
  omega

/-- Bit 8 of a sum that is less than 512. -/
theorem gateAddCarry_eq {n : Nat} (h : n < 512) : gateAddCarry n = decide (n > 255) := by
  rw [gateAddCarry, Nat.testBit_eq_decide_div_mod_eq, decide_eq_decide]
  omega

theorem gateCarry16_eq {n : Nat} (h : n < 131072) : gateCarry16 n = decide (n > 65535) := by
  rw [gateCarry16, Nat.testBit_eq_decide_div_mod_eq, decide_eq_decide]
  omega

/-- The gate-level half-carry of ADD16 is the carry out of the low twelve bits. -/
theorem gateHalfCarry16_add16Result (hl v : Word16) :
    gateHalfCarry16 hl v (add16Result hl v) = decide (low12 hl + low12 v > 0xFFF) := by
  have hsum : add16Result hl v = hl + v + (BitVec.ofBool false).setWidth 16 := by
    apply BitVec.eq_of_toNat_eq
    rw [add16Result_toNat]
    simp
  rw [gateHalfCarry16, shiftRight_and_one_beq (by decide), hsum, xor_add_getLsbD (by decide), BitVec.carry, low12_eq, low12_eq]
  rfl

/-- Settles O28: a bit where sum and operands differ is a carry, and a carry is a comparison of the bits below. -/
theorem gateLevelFlagsEqualTheFormulas : Obligations.GateLevelFlagsEqualTheFormulas := by
  refine ⟨fun a v cin => ?_, fun hl v => ?_⟩
  · have hcin : cin.toNat ≤ 1 := Bool.toNat_le cin
    refine ⟨(gateHalfCarry_addResult a v cin).symm, (gateAddCarry_eq (by omega)).symm,
      (gateHalfCarry_subResult a v cin).symm, ?_⟩
    rw [gateSubCarry, subFlags, decide_eq_decide]
    omega
  · exact ⟨(gateHalfCarry16_add16Result hl _).symm, (gateCarry16_eq (by omega)).symm⟩

/-! ## Corner cases (42_alu_arith.md R170 to R180, 43_alu_logic.md, 44_alu_cp_inc_dec.md R220) -/

theorem subResult_self (a : Byte) (cin : Bool) : subResult a a cin.toNat = if cin then 0xFF#8 else 0#8 := by
  cases cin <;> simp [subResult]

theorem subFlags_self (a : Byte) (cin : Bool) : subFlags a a cin.toNat = ⟨!cin, true, cin, cin⟩ := by
  rw [subFlags_eq]
  cases cin <;> simp

/-- Settles O29: A against itself, in the arithmetic and in the logic functions. -/
theorem selectingTheAccumulatorItself : Obligations.SelectingTheAccumulatorItself := by
  intro s
  have hand : s.regs.a &&& s.regs.a = s.regs.a := BitVec.and_self
  have hor : s.regs.a ||| s.regs.a = s.regs.a := BitVec.or_self
  have hxor : s.regs.a ^^^ s.regs.a = 0#8 := BitVec.xor_self
  have hset : s.regs.set .a s.regs.a = s.regs := PerReg.set_get s.regs .a
  refine ⟨⟨_, rfl, subResult_self s.regs.a false, subFlags_self s.regs.a false⟩, ⟨_, exec_xor .a s, hxor, ?_⟩,
    ⟨_, rfl, subResult_self s.regs.a s.f.cy, subFlags_self s.regs.a s.f.cy⟩,
    ⟨_, rfl, rfl, subFlags_self s.regs.a false⟩, ⟨_, exec_and .a s, ?_, ?_⟩, ⟨_, exec_or .a s, ?_, ?_⟩⟩
  · exact congrArg (logicFlags · false) hxor
  · exact (congrArg (s.regs.set .a) hand).trans hset
  · exact congrArg (logicFlags · true) hand
  · exact (congrArg (s.regs.set .a) hor).trans hset
  · exact congrArg (logicFlags · false) hor

theorem addResult_FF_one (a : Byte) : addResult a 0xFF#8 1 = a := by
  apply BitVec.eq_of_toNat_eq
  rw [addResult_toNat]
  exact (Nat.add_mod_right a.toNat 256).trans (Nat.mod_eq_of_lt a.isLt)

theorem addFlags_FF_one (a : Byte) : (addFlags a 0xFF#8 1).hc = true ∧ (addFlags a 0xFF#8 1).cy = true := by
  simp [addFlags, lowNibble_eq]

/-- 256 taken away is 256 added. -/
theorem subResult_FF_one (a : Byte) : subResult a 0xFF#8 1 = a := by
  have h := addResult_subResult a 0xFF#8 1
  rwa [addResult_FF_one] at h

theorem subFlags_FF_one (a : Byte) : (subFlags a 0xFF#8 1).hc = true ∧ (subFlags a 0xFF#8 1).cy = true := by
  simp [subFlags, lowNibble_eq]
  omega

/-- An instruction that writes A's own contents back to A, and half-carry and carry set, leaves every register. -/
theorem exec_accumulator_keep {i : Instr} {s : State} {v : Byte} {f : Flags}
    (h : exec i s = .next (returnOk (writeFlags f (writeReg .a v (need (cellsRead i) s))))) (hv : v = s.regs.a)
    (hf : f.hc = true ∧ f.cy = true) :
    ∃ t, exec i s = .next t ∧ t.regs = s.regs ∧ t.f.hc = true ∧ t.f.cy = true := by
  subst hv
  exact ⟨_, h, PerReg.set_get s.regs .a, hf⟩

/-- Settles O30: 0xFF and the carry are 256, which moves no byte and passes every digit. -/
theorem carryAndFFMoveByAWholeTurn : Obligations.CarryAndFFMoveByAWholeTurn := by
  intro r s hr hcy
  have hread : readReg s r = 0xFF#8 := hr
  have hcin : carryIn s = 1 := congrArg Bool.toNat hcy
  refine ⟨exec_accumulator_keep (i := .adc r) (s := s) rfl ?_ ?_, exec_accumulator_keep (i := .sbc r) (s := s) rfl ?_ ?_⟩ <;>
    rw [hread, hcin]
  · exact addResult_FF_one _
  · exact addFlags_FF_one _
  · exact subResult_FF_one _
  · exact subFlags_FF_one _

/-! ## Register ports (40_register_ports.md R112, R113; 20_memory.md R69) -/

theorem perform_writeRegister (r : Reg) (v : Byte) (s : State) :
    perform (.writeRegister (regCode r) v) s = .next (respond ⟨.ok, none⟩ (writeReg r v s)) := by
  simp [perform, writeRegisterPort]

/-- Settles O34: code 7 names no register, and any other code is the one write of its register. -/
theorem writeRegisterWritesOneRegister : Obligations.WriteRegisterWritesOneRegister := by
  intro s c v rest h
  refine ⟨?_, ?_⟩
  · rintro rfl
    exact step_issue h
  · rintro r rfl
    exact ⟨_, (step_issue h).trans (perform_writeRegister ..), PerReg.get_set_same ..,
      fun q hq => PerReg.get_set_other _ _ hq, rfl, fun k => writeReg_mark r v _ k, rfl, rfl, rfl⟩

/-- A register written twice with one value is written once. -/
theorem writeReg_respond_writeReg (r : Reg) (v : Byte) (s : State) (o : Response) :
    writeReg r v (respond o (writeReg r v s)) = respond o (writeReg r v s) := by
  cases r <;> rfl

theorem writePair_respond_writePair (p : Pair) (v : Word16) (s : State) (o : Response) :
    writePair p v (respond o (writePair p v s)) = respond o (writePair p v s) := by
  cases p <;> rfl

@[simp] theorem respond_respond (r q : Response) (s : State) : respond r (respond q s) = respond r s := rfl

@[simp] theorem readPair_need (cs : List Cell) (s : State) (p : Pair) : readPair (need cs s) p = readPair s p := by
  cases p <;> rfl

/-- Cells needed twice leave the record of the first time. -/
theorem need_respond_need (cs : List Cell) (s : State) (o : Response) :
    need cs (respond o (need cs s)) = respond o (need cs s) := by
  simp [need, respond, Option.or_assoc, Option.or_self]

/-- Settles O40: port by port, the second call finds the cells, marks and record that the first one left. -/
theorem readsAreRepeatableAndWritesIdempotent : Obligations.ReadsAreRepeatableAndWritesIdempotent := by
  intro s t hx
  cases t with
  | execute iw => exact absurd rfl (hx iw)
  | readRegister c =>
    obtain hd | ⟨r, hd⟩ := (decodeReg c).eq_none_or_eq_some
    · simp [perform, readRegisterPort, hd]
    · simp [perform, readRegisterPort, hd, readReg, need_respond_need]
  | writeRegister c v =>
    obtain hd | ⟨r, hd⟩ := (decodeReg c).eq_none_or_eq_some
    · simp [perform, writeRegisterPort, hd]
    · simp [perform, writeRegisterPort, hd, writeReg_respond_writeReg]
  | getPair c =>
    obtain hd | ⟨p, hd⟩ := (decodePair c).eq_none_or_eq_some
    · simp [perform, getPairPort, hd]
    · simp [perform, getPairPort, hd, need_respond_need]
  | setPair c v =>
    obtain hd | ⟨p, hd⟩ := (decodePair c).eq_none_or_eq_some
    · simp [perform, setPairPort, hd]
    · simp [perform, setPairPort, hd, writePair_respond_writePair]
  | flags => simp [perform, flagsPort, need_respond_need]

end Sys2Proof.Machine
